-- ==== Sys2Proof/Word.lean ====
section
/-! DEFINITION. Bytes, register offsets and port words of the block: 00_scope.md R6, R7, 20_memory.md R40, 30_encoding.md R67. -/

namespace Sys2Proof

/-- A byte: 8 bits, bit 7 the most significant (R7). -/
abbrev Byte := BitVec 8

/-- A register offset: an unsigned 8-bit number, 0x00 to 0xFF (R40). -/
abbrev Offset := BitVec 8

/-- One integer field on a port: `FIELD_W = 32` bits, signed two's complement (R67). -/
abbrev FieldWord := BitVec 32

/-- A whole register image on a port: 56 bits (R61). -/
abbrev ImageWord := BitVec 56

/-- The command word `op[2:0]` (R69). -/
abbrev OpWord := BitVec 3

end Sys2Proof
end

