-- ==== Sys2Proof/Config.lean ====
section
/-! DEFINITION. The implementation parameters of 00_scope.md R6 and the free values of the model. -/

namespace Sys2Proof.Config

/-- `IMAGE_LEN`: a register image is 7 bytes (R6, R60, R74). -/
def imageLen : Nat := 7

/-- `IMAGE_BASE`: the image starts at offset 0 (R6, R74). -/
def imageBase : Offset := 0x00#8

/-- `HR_OFFSET`: the offset of the hours register (R6, R74). -/
def hrOffset : Offset := 0x02#8

/-- The register space has 256 offsets, 0x00 to 0xFF (R40). -/
def spaceSize : Nat := 256

/-- `MODE_24H_BYTE`, DOC0's `MODE_24H_BIT`: the spec takes 0x00 (R6, R74; decision D9).
DESIGN CHOICE, unsafe: the source never gives the byte (log 9). -/
def mode24hByte : Byte := 0x00#8

/-- `YEAR_MIN` (R6; decision D7). -/
def yearMin : Int := 100

/-- `YEAR_MAX` (R6; decision D7). -/
def yearMax : Int := 199

/-- `TCode`, the type of a transport code: OPEN in the spec, any type, passed through unchanged (R6, R41, R161).
DESIGN CHOICE, safe: a code is a number of any size, so codes of every port width, and of every type whose values can
be numbered, can be presented; the block never looks at one (log 10). -/
abbrev TCode := Nat

/-- FREE VALUE: the byte found, in the `n`-th bulk read, at an offset whose contents nothing has determined
(the chip's power-up contents, 91_not_in_source.md N7; a register after a failed write, R47, U6).
Arguments: the counter `State.freeCount`, the offset. Nothing constrains it (log 4, log 5, log 6). -/
opaque unknownChipByte : Nat → Nat → Byte

end Sys2Proof.Config
end

