-- ==== Sys2Proof/Syntax.lean ====
section
/-! DEFINITION. The two data formats, the seven operations and the command port: 30_encoding.md. -/

namespace Sys2Proof

/-- A RegisterImage: exactly 7 bytes, `IMG[0]` to `IMG[6]`, named by the register each offset holds (R27, R60). -/
structure RegisterImage where
  /-- `IMG[0]`, seconds (R28). -/
  sec : Byte
  /-- `IMG[1]`, minutes (R29). -/
  min : Byte
  /-- `IMG[2]`, hours and the hour-mode bit (R30). -/
  hr : Byte
  /-- `IMG[3]`, weekday (R31). -/
  day : Byte
  /-- `IMG[4]`, day of month (R32). -/
  date : Byte
  /-- `IMG[5]`, month (R33). -/
  mon : Byte
  /-- `IMG[6]`, year (R34). -/
  yr : Byte
  deriving DecidableEq, Repr

/-- A CanonicalTime: seven integer fields (R66). The fields are exact integers (R8, R67); WellFormed bounds
what a port can carry. -/
structure CanonicalTime where
  seconds : Int
  minutes : Int
  hours : Int
  /-- Day of the week, 0 for the chip's first day. -/
  weekday : Int
  dayOfMonth : Int
  /-- Month, 0 for January. -/
  month : Int
  /-- Years since 1900. -/
  year : Int
  deriving DecidableEq, Repr

/-- The seven operations of the operation map, each with its operand (R70). -/
inductive Instr where
  /-- BCD2BIN, `bcd_to_bin(b)` (R91). -/
  | bcd2bin (byteIn : Byte)
  /-- BIN2BCD, `bin_to_bcd(n)` (R92). -/
  | bin2bcd (nIn : Int)
  /-- DECODE, `decode(image)` (R120). -/
  | decode (imageIn : RegisterImage)
  /-- ENCODE, `encode(time)` (R124). -/
  | encode (timeIn : CanonicalTime)
  /-- READ_TIME, `read_time()` (R142). -/
  | readTime
  /-- SET_TIME, `set_time(time)` (R143). -/
  | setTime (timeIn : CanonicalTime)
  /-- INITIALIZE, `initialize()` (R144). -/
  | initSession
  deriving DecidableEq, Repr

/-- The port `time_in`: seven signed 32-bit fields in the order of R66 (R67, R69). -/
structure TimePort where
  seconds : FieldWord
  minutes : FieldWord
  hours : FieldWord
  weekday : FieldWord
  dayOfMonth : FieldWord
  month : FieldWord
  year : FieldWord
  deriving DecidableEq, Repr

/-- An encoded operation: the command word and the operand ports as the host drives them (R69). -/
structure Command where
  op : OpWord
  byteIn : Byte
  nIn : FieldWord
  imageIn : ImageWord
  timeIn : TimePort
  deriving DecidableEq, Repr

end Sys2Proof
end

