-- ==== Sys2Proof/WellFormed.lean ====
section
/-! DEFINITION. Which operations a host can put on the ports: every integer operand fits `FIELD_W` bits (30_encoding.md R67). -/

namespace Sys2Proof

/-- The integer fits a signed 32-bit port field (R67). -/
abbrev FitsField (n : Int) : Prop := -2147483648 ≤ n ∧ n < 2147483648

/-- Every field of the time fits its port field (R67). -/
abbrev CanonicalTime.FitsPorts (t : CanonicalTime) : Prop :=
  FitsField t.seconds ∧ FitsField t.minutes ∧ FitsField t.hours ∧ FitsField t.weekday ∧
    FitsField t.dayOfMonth ∧ FitsField t.month ∧ FitsField t.year

/-- The operation can be presented on the ports (R67, R69). -/
def Instr.wellFormed : Instr → Bool
  | .bcd2bin _ => true
  | .bin2bcd nIn => decide (FitsField nIn)
  | .decode _ => true
  | .encode timeIn => decide timeIn.FitsPorts
  | .readTime => true
  | .setTime timeIn => decide timeIn.FitsPorts
  | .initSession => true

end Sys2Proof
end

