-- ==== Sys2Proof/Decode.lean ====
section
/-! DEFINITION. From the command and operand ports to an operation and back: 30_encoding.md R61, R67, R69 to R71. -/

namespace Sys2Proof

/-- Why the ports name no operation. -/
inductive DecodeError where
  /-- `op = 7` is reserved (R71). -/
  | reservedOp
  deriving DecidableEq, Repr

/-- Byte `i` of an image on a 56-bit port stands at bits `[8*i+7 : 8*i]` (R61). -/
def ImageWord.byteAt (w : ImageWord) (i : Nat) : Byte := w.extractLsb' (8 * i) 8

/-- The image a 56-bit port carries (R61). -/
def RegisterImage.ofPort (w : ImageWord) : RegisterImage where
  sec := ImageWord.byteAt w 0
  min := ImageWord.byteAt w 1
  hr := ImageWord.byteAt w 2
  day := ImageWord.byteAt w 3
  date := ImageWord.byteAt w 4
  mon := ImageWord.byteAt w 5
  yr := ImageWord.byteAt w 6

/-- The 56-bit form of an image: SEC in bits 7:0, YR in bits 55:48 (R61). -/
def RegisterImage.toPort (img : RegisterImage) : ImageWord :=
  img.yr ++ img.mon ++ img.date ++ img.day ++ img.hr ++ img.min ++ img.sec

/-- The seven signed integers on `time_in` (R67). -/
def CanonicalTime.ofPort (p : TimePort) : CanonicalTime where
  seconds := p.seconds.toInt
  minutes := p.minutes.toInt
  hours := p.hours.toInt
  weekday := p.weekday.toInt
  dayOfMonth := p.dayOfMonth.toInt
  month := p.month.toInt
  year := p.year.toInt

/-- One integer as a signed port field (R67). -/
def fieldWord (n : Int) : FieldWord := BitVec.ofInt 32 n

/-- The seven fields as port words (R67). -/
def CanonicalTime.toPort (t : CanonicalTime) : TimePort where
  seconds := fieldWord t.seconds
  minutes := fieldWord t.minutes
  hours := fieldWord t.hours
  weekday := fieldWord t.weekday
  dayOfMonth := fieldWord t.dayOfMonth
  month := fieldWord t.month
  year := fieldWord t.year

/-- Decoding: `op` selects the operation, which takes its operand from its own port and ignores the others
(R69, R70); `op = 7` selects none (R71). Total on every value of the ports. -/
def decode (c : Command) : Except DecodeError Instr :=
  match c.op.toNat with
  | 0 => .ok (.bcd2bin c.byteIn)
  | 1 => .ok (.bin2bcd c.nIn.toInt)
  | 2 => .ok (.decode (.ofPort c.imageIn))
  | 3 => .ok (.encode (.ofPort c.timeIn))
  | 4 => .ok .readTime
  | 5 => .ok (.setTime (.ofPort c.timeIn))
  | 6 => .ok .initSession
  | _ => .error .reservedOp

/-- The time port driven with zeros. -/
def TimePort.zero : TimePort := ⟨0, 0, 0, 0, 0, 0, 0⟩

/-- The ports with the given command word and zeros on every operand port. -/
def Command.ofOp (op : OpWord) : Command := ⟨op, 0, 0, 0, TimePort.zero⟩

/-- Encoding: the code of R70 and the operand on its port; a port the operation does not use is driven with
zeros (R69 says it is ignored). -/
def encode : Instr → Command
  | .bcd2bin byteIn => { Command.ofOp 0 with byteIn := byteIn }
  | .bin2bcd nIn => { Command.ofOp 1 with nIn := fieldWord nIn }
  | .decode imageIn => { Command.ofOp 2 with imageIn := imageIn.toPort }
  | .encode timeIn => { Command.ofOp 3 with timeIn := timeIn.toPort }
  | .readTime => Command.ofOp 4
  | .setTime timeIn => { Command.ofOp 5 with timeIn := timeIn.toPort }
  | .initSession => Command.ofOp 6

/-- The ports that an instruction word of the operation table stands for: its low three bits are `op`, and the
table gives the operands no bits, so every operand port carries zeros (R69; log 18). -/
def commandOfTableWord (nbits w : Nat) : Command := Command.ofOp (BitVec.ofNat 3 (w % 2 ^ nbits))

/-- The operation the decoder reads from a word of the operation table. -/
def decodeTableWord (nbits w : Nat) : Option Instr :=
  match decode (commandOfTableWord nbits w) with
  | .ok i => some i
  | .error _ => none

end Sys2Proof
end

