-- ==== Sys2Proof/Machine/State.lean ====
section
/-! DEFINITION. The state of the block, the chip's register space behind its bus, and what the outside world does: 10_state.md, 20_memory.md R40 to R59, 30_encoding.md R72 and R73, 70_reset_and_hazards.md R185 and R186. -/

namespace Sys2Proof.Machine

/-- The block's one state bit (R20, R21). -/
inductive SessionState where
  | uninitialized
  | ready
  deriving DecidableEq, Repr

/-- `CodecError` (R9, R160). Neither error carries a value (R166). -/
inductive CodecError where
  /-- A consumed nibble is in [10,15] (R162). -/
  | malformedBcd
  /-- A field is outside its range (R163). -/
  | fieldOutOfRange
  deriving DecidableEq, Repr

/-- `SessionError` (R9, R160). -/
inductive SessionError where
  /-- A bus call failed; the collaborator's code, unchanged (R161). -/
  | transport (code : Config.TCode)
  /-- A codec error, wrapped unchanged (R160). -/
  | codec (e : CodecError)
  deriving DecidableEq, Repr

/-- What a successful operation returns (R70). -/
inductive Value where
  /-- `n_out` of BCD2BIN. -/
  | number (n : Int)
  /-- `byte_out` of BIN2BCD. -/
  | byte (b : Byte)
  /-- `time_out`, `day_of_year_out`, `is_dst_out` of DECODE and READ_TIME (R121). -/
  | time (t : CanonicalTime) (dayOfYear isDst : Int)
  /-- `image_out` of ENCODE. -/
  | image (img : RegisterImage)
  /-- `()`, of SET_TIME and INITIALIZE (R9). -/
  | unit
  deriving DecidableEq, Repr

/-- The result of one operation (R9, R160), and the spec's own outcome Refused (R164). -/
inductive OpResult where
  | ok (v : Value)
  /-- `err(e)` of a codec operation. -/
  | codecErr (e : CodecError)
  /-- `err(e)` of a session operation. -/
  | sessionErr (e : SessionError)
  /-- The operation is not permitted, or `op = 7` (R164). -/
  | refused
  deriving DecidableEq, Repr

/-- A call the block makes on the RegisterInterface (R41). -/
inductive BusCall where
  /-- `bulk_read(offset, len)`. -/
  | bulkRead (offset : Offset) (len : Nat)
  /-- `bulk_write(offset, bytes)`. -/
  | bulkWrite (offset : Offset) (bytes : List Byte)
  /-- `write_single(offset, value)`. -/
  | writeSingle (offset : Offset) (value : Byte)
  deriving DecidableEq, Repr

/-- How the RegisterInterface answers a call (R41). -/
inductive BusReply where
  /-- Success. -/
  | ok
  /-- Success, but a read hands over a number of bytes that is not the one asked for: a broken contract
  (R43, decision D15). A write's success carries no bytes, so there it is plain success. -/
  | okWrongLength
  /-- Failure with an opaque code (R58). -/
  | err (code : Config.TCode)
  /-- The call never returns (R59). -/
  | noAnswer
  deriving DecidableEq, Repr

/-- What the world behind the bus port does with the next call: an input of the step (R26, R55, decision D20). -/
structure BusTurn where
  /-- What the chip, or another master, changed since the last call, in order (R55). Any bytes at any offsets. -/
  drift : List (Offset × Byte)
  /-- The answer to the call. -/
  reply : BusReply
  deriving DecidableEq, Repr

/-- One thing the host does (R24, R69, R185). -/
inductive Event where
  /-- The host presents a command; the RegisterInterface will answer its call, if it makes one, as given. -/
  | command (c : Command) (t : BusTurn)
  /-- The host resets the block, or drops the session and constructs another (R151, R185). -/
  | reset
  deriving DecidableEq, Repr

/-- The chip's register space (R40): the offsets whose contents are determined, each with its byte, offsets
strictly rising. An unlisted offset has no determined contents (power-up, N7; after a failed write, U6). -/
abbrev Memory := List Host.Cell

/-- The canonical form: offsets strictly rising and inside the space. No entry could equal what an unlisted
offset reads as, since that is no byte. -/
abbrev Memory.wf (m : Memory) : Prop :=
  m.Pairwise (fun x y => x.1 < y.1) ∧ ∀ c ∈ m, c.1 < Config.spaceSize

/-- The state of the machine: the block's bit, its ports, and the chip behind the bus. -/
structure State where
  /-- `SESSION_STATE` (R20, R21). -/
  session : SessionState
  /-- The chip's register space (R27, R40): state of the chip, which the block reaches only by bus calls. -/
  chip : Memory
  /-- The result ports: none before the first operation completes (R73, R185, R186). -/
  result : Option OpResult
  /-- The calls made on the bus port, oldest first (R41, R52). The model's recorder (log 13). -/
  trace : List BusCall
  /-- The RegisterInterface's side of the bus port: what it will do with the next call (R26; log 2). -/
  bus : BusTurn
  /-- What the host does, next event first: the command ports and the reset input over time (R24, R69; log 1). -/
  inbox : List Event
  /-- The model's own: numbers the reads, so that each takes fresh free bytes (log 5). -/
  freeCount : Nat
  deriving DecidableEq, Repr

/-- Reasons the machine stops. -/
inductive Fault where
  /-- A bus call never returns, so the operation never completes (R59, R197; treated as stuck, U10). Raised by
  READ_TIME, SET_TIME, INITIALIZE. Safe: the hardware makes no further step either (log 7). -/
  | busNeverAnswers
  /-- A transfer would reach beyond offset 0xFF, whose outcome is unspecified and never needed (R50). Raised by
  the bus primitives; no operation of the block reaches it. Safe (log 16). -/
  | outsideRegisterSpace
  deriving DecidableEq, Repr

/-- Reasons the model gives a step no meaning. -/
inductive Refusal where
  /-- The instruction of that mnemonic has no meaning yet. Raised by exec's arms only; none does. Safe. -/
  | notModelled (mnemonic : String)
  /-- The collaborator reports a successful read without the bytes asked for; the block has no behaviour there
  (R43, D15; refused, U13). Raised by READ_TIME. Safe (log 8). -/
  | wrongLengthRead
  deriving DecidableEq, Repr

/-- The machine after reset: `Uninitialized`, no result pending, no call made, nothing from the host yet
(R185, R186); nothing is known of the chip's registers (N7; log 4). `bus` and `freeCount` are the model's
choice (DESIGN CHOICE, logs 3 and 5). -/
def State.reset : State where
  session := .uninitialized
  chip := []
  result := none
  trace := []
  bus := ⟨[], .ok⟩
  inbox := []
  freeCount := 0

end Sys2Proof.Machine
end

