-- ==== Sys2Proof/Machine/Ops.lean ====
section
/-! DEFINITION. The shared operations: the chip's register space, the three bus calls (20_memory.md R41), and the end of an operation with its result or its error (60_exceptions.md R168). -/

namespace Sys2Proof.Machine

/-- The byte determined at an offset, if any (R40). -/
def Memory.read? : Memory → Nat → Option Byte
  | [], _ => none
  | (k, v) :: rest, a => if a = k then some v else Memory.read? rest a

/-- One byte written at an offset (R40), keeping the canonical form. -/
def Memory.write : Memory → Nat → Byte → Memory
  | [], a, b => [(a, b)]
  | (k, v) :: rest, a, b =>
    if a < k then (a, b) :: (k, v) :: rest
    else if a = k then (a, b) :: rest
    else (k, v) :: Memory.write rest a b

/-- The contents of an offset become undetermined (U6). -/
def Memory.forget : Memory → Nat → Memory
  | [], _ => []
  | (k, v) :: rest, a => if a = k then Memory.forget rest a else (k, v) :: Memory.forget rest a

/-- Byte `i` goes to offset `a + i` (R42). -/
def Memory.writeBytes : Memory → Nat → List Byte → Memory
  | m, _, [] => m
  | m, a, b :: bs => Memory.writeBytes (m.write a b) (a + 1) bs

/-- `n` offsets from `a` become undetermined (U6). -/
def Memory.forgetRange : Memory → Nat → Nat → Memory
  | m, _, 0 => m
  | m, a, n + 1 => Memory.forgetRange (m.forget a) (a + 1) n

/-- The changes the chip or another master made, applied in order (R55). -/
def Memory.drifted : Memory → List (Offset × Byte) → Memory
  | m, [] => m
  | m, (o, b) :: rest => Memory.drifted (m.write o.toNat b) rest

/-- The register space at the moment of the next call: what the last call left, and the chip's own changes
since (R55, decision D20). -/
def State.chipNow (s : State) : Memory := s.chip.drifted s.bus.drift

/-- The byte the chip holds at an offset at the moment of the next call: the determined one, or a free byte
where nothing determines it (N7, U6, U7; log 4). -/
def State.chipByte (s : State) (a : Nat) : Byte :=
  match s.chipNow.read? a with
  | some b => b
  | none => Config.unknownChipByte s.freeCount a

/-- Consecutive bytes of the chip, ascending offset (R42, R44). -/
def State.chipBytes (s : State) : Nat → Nat → List Byte
  | _, 0 => []
  | a, n + 1 => s.chipByte a :: s.chipBytes (a + 1) n

/-- What a bus primitive gives the operation that called it. -/
inductive CallOutcome (α : Type) where
  /-- `ok(v)`, and the state after the call. -/
  | ok (v : α) (s : State)
  /-- `err(code)`, and the state after the call. -/
  | err (code : Config.TCode) (s : State)
  /-- The call never returns (R59). -/
  | never
  /-- The transfer would reach beyond offset 0xFF (R50). -/
  | outside
  deriving DecidableEq, Repr

/-- The state after a call: the call stands on the bus port, the register space is as given (R52). -/
def State.afterCall (s : State) (c : BusCall) (chip : Memory) : State :=
  { s with trace := s.trace ++ [c], chip := chip }

/-- The next bulk read takes other free bytes (log 5). -/
def State.freshFree (s : State) : State := { s with freeCount := s.freeCount + 1 }

/-- `MemRead(offset, len)`, `bulk_read`: one atomic snapshot of `len` bytes, byte `i` from `offset + i`
(R41, R42, R47). A wrong-length success (R43) is stood for by no bytes.
DESIGN CHOICE: whether a read, or a read that fails, disturbs the chip is in no source (R48, N8); here it does not, and
the register space stays as it was at the moment of the call (log 29). -/
def memRead (s : State) (offset : Offset) (len : Nat) : CallOutcome (List Byte) :=
  if Config.spaceSize < offset.toNat + len then .outside
  else
    match s.bus.reply with
    | .ok => .ok (s.chipBytes offset.toNat len) (s.afterCall (.bulkRead offset len) s.chipNow).freshFree
    | .okWrongLength => .ok [] (s.afterCall (.bulkRead offset len) s.chipNow)
    | .err code => .err code (s.afterCall (.bulkRead offset len) s.chipNow)
    | .noAnswer => .never

/-- The shared form of both write calls (R41): on success the bytes are stored at once, byte `i` at
`offset + i` (R42, R47); on failure each of those offsets may hold anything (R47, U6). -/
def memStore (s : State) (c : BusCall) (offset : Offset) (bytes : List Byte) : CallOutcome Unit :=
  if Config.spaceSize < offset.toNat + bytes.length then .outside
  else
    match s.bus.reply with
    | .ok => .ok () (s.afterCall c (s.chipNow.writeBytes offset.toNat bytes))
    | .okWrongLength => .ok () (s.afterCall c (s.chipNow.writeBytes offset.toNat bytes))
    | .err code => .err code (s.afterCall c (s.chipNow.forgetRange offset.toNat bytes.length))
    | .noAnswer => .never

/-- `MemWrite(offset, n, bytes)`, `bulk_write` (R41). -/
def memWrite (s : State) (offset : Offset) (bytes : List Byte) : CallOutcome Unit :=
  memStore s (.bulkWrite offset bytes) offset bytes

/-- `MemWrite1(offset, value)`, `write_single`: a call of its own kind, one byte (R41, R10). -/
def memWrite1 (s : State) (offset : Offset) (value : Byte) : CallOutcome Unit :=
  memStore s (.writeSingle offset value) offset [value]

/-- THE END OF AN OPERATION, with a value or with an error: the result ports take the result, nothing is saved,
no mode changes, control goes nowhere (R168); the block is ready for the next operation (R170), so there is no
return to model. -/
def State.finish (s : State) (r : OpResult) : State := { s with result := some r }

/-- `SESSION_STATE <- Ready` (R10, R21). -/
def State.becomeReady (s : State) : State := { s with session := .ready }

/-- A reset of the block: `SESSION_STATE` to `Uninitialized`, no result pending; the chip and the bus are not
touched (R185, R187). -/
def State.resetBlock (s : State) : State := { s with session := .uninitialized, result := none }

/-- The result of a codec operation (R9, R160). -/
def codecResult {α : Type} (value : α → Value) : Except CodecError α → OpResult
  | .ok v => .ok (value v)
  | .error e => .codecErr e

/-- The result of a session operation that ends in the codec: the error is wrapped unchanged (R160). -/
def sessionResult {α : Type} (value : α → Value) : Except CodecError α → OpResult
  | .ok v => .ok (value v)
  | .error e => .sessionErr (.codec e)

end Sys2Proof.Machine
end

