-- ==== Sys2Proof/Machine/Operands.lean ====
section
/-! DEFINITION. Operand assembly: bit slices of a byte, the register fields, the part of each byte DECODE consumes, and images as byte sequences: 00_scope.md R7, 10_state.md R28 to R34, 30_encoding.md R60 to R65. -/

namespace Sys2Proof.Machine

/-- `b[7:4]`, read as an unsigned integer (R7). -/
def hiNibble (b : Byte) : Nat := (b >>> 4).toNat

/-- `b[3:0]`, read as an unsigned integer (R7). -/
def loNibble (b : Byte) : Nat := (b &&& 0x0F#8).toNat

/-- CH, bit 7 of SEC: the clock-halt flag (R28). No operation interprets it. -/
def clockHalt (sec : Byte) : Bool := sec.getLsbD 7

/-- MODE12, bit 6 of HR: 1 for the 12-hour representation (R30, R65). -/
def mode12 (hr : Byte) : Bool := hr &&& 0x40#8 != 0x00#8

/-- Bit 5 of HR: PM in 12-hour mode, the weight-20 bit in 24-hour mode (R30). No operation reports it. -/
def pmOr20 (hr : Byte) : Bool := hr.getLsbD 5

/-- The part of SEC that DECODE consumes (R62). -/
def consumedSec (b : Byte) : Byte := b &&& 0x7F#8

/-- The part of MIN that DECODE consumes (R62). -/
def consumedMin (b : Byte) : Byte := b &&& 0x7F#8

/-- The part of HR that DECODE consumes: the mode bit selects the mask (R62, R65). -/
def consumedHr (b : Byte) : Byte := if mode12 b then b &&& 0x1F#8 else b &&& 0x3F#8

/-- The part of DAY that DECODE consumes (R62). -/
def consumedDay (b : Byte) : Byte := b &&& 0x07#8

/-- The part of DATE that DECODE consumes (R62). -/
def consumedDate (b : Byte) : Byte := b &&& 0x3F#8

/-- The part of MON that DECODE consumes (R62). -/
def consumedMon (b : Byte) : Byte := b &&& 0x1F#8

/-- The part of YR that DECODE consumes: all of it (R62). -/
def consumedYr (b : Byte) : Byte := b

/-- The bytes of an image in offset order (R42, R60). -/
def imageBytes (img : RegisterImage) : List Byte :=
  [img.sec, img.min, img.hr, img.day, img.date, img.mon, img.yr]

/-- The image that a bulk transfer of exactly 7 bytes carries (R42, R43, R60). -/
def imageOfBytes : List Byte → Option RegisterImage
  | [b0, b1, b2, b3, b4, b5, b6] => some ⟨b0, b1, b2, b3, b4, b5, b6⟩
  | _ => none

/-- Where the image stands in the register space: `IMAGE_BASE` (R74). -/
def imageOffset : Offset := Config.imageBase

/-- How many bytes of it there are: `IMAGE_LEN` (R74). -/
def imageCount : Nat := Config.imageLen

/-- Where HR stands: `HR_OFFSET` (R74). -/
def hoursOffset : Offset := Config.hrOffset

/-- The byte INITIALIZE writes: `MODE_24H_BYTE` (R74; log 9). -/
def modeByte : Byte := Config.mode24hByte

end Sys2Proof.Machine
end

