-- ==== Sys2Proof/Machine/Bcd.lean ====
section
/-! DEFINITION. The BCD primitives and the operations BCD2BIN and BIN2BCD: 40_bcd.md. -/

namespace Sys2Proof.Machine

/-- `bcd_to_bin(b)` (R91). -/
def bcdToBin (b : Byte) : Except CodecError Int :=
  if 9 < hiNibble b ∨ 9 < loNibble b then .error .malformedBcd
  else .ok (10 * (hiNibble b : Int) + (loNibble b : Int))

/-- `bin_to_bcd(n)` (R92). -/
def binToBcd (n : Int) : Except CodecError Byte :=
  if n < 0 ∨ 99 < n then .error .fieldOutOfRange
  else .ok (BitVec.ofNat 8 (n.toNat / 10) <<< 4 ||| BitVec.ofNat 8 (n.toNat % 10))

/-- BCD2BIN (R91). -/
def execBcd2bin (byteIn : Byte) (s : State) : Host.Outcome State Fault Refusal :=
  .next (s.finish (codecResult .number (bcdToBin byteIn)))

/-- BIN2BCD (R92). -/
def execBin2bcd (nIn : Int) (s : State) : Host.Outcome State Fault Refusal :=
  .next (s.finish (codecResult .byte (binToBcd nIn)))

end Sys2Proof.Machine
end

