-- ==== Sys2Proof/Machine/Translate.lean ====
section
/-! DEFINITION. The time-field range translators and the validity check: 41_field_translate.md. -/

namespace Sys2Proof.Machine

/-- A converted byte plus the field's constant offset (R100). -/
def addOffset (k : Int) : Except CodecError Int → Except CodecError Int
  | .ok n => .ok (n + k)
  | .error e => .error e

/-- `dec_seconds` (R101). -/
def decSeconds (b : Byte) : Except CodecError Int := bcdToBin (consumedSec b)

/-- `dec_minutes` (R102). -/
def decMinutes (b : Byte) : Except CodecError Int := bcdToBin (consumedMin b)

/-- `dec_hours`: the mode dispatch is in what is consumed (R103); the PM bit is not consulted (R130). -/
def decHours (b : Byte) : Except CodecError Int := bcdToBin (consumedHr b)

/-- `dec_weekday` (R104). -/
def decWeekday (b : Byte) : Except CodecError Int := addOffset (-1) (bcdToBin (consumedDay b))

/-- `dec_day_of_month` (R105). -/
def decDayOfMonth (b : Byte) : Except CodecError Int := bcdToBin (consumedDate b)

/-- `dec_month` (R106). -/
def decMonth (b : Byte) : Except CodecError Int := addOffset (-1) (bcdToBin (consumedMon b))

/-- `dec_year` (R107). -/
def decYear (b : Byte) : Except CodecError Int := addOffset 100 (bcdToBin (consumedYr b))

/-- `enc_seconds` (R108). -/
def encSeconds (n : Int) : Except CodecError Byte := binToBcd n

/-- `enc_minutes` (R109). -/
def encMinutes (n : Int) : Except CodecError Byte := binToBcd n

/-- `enc_hours`: always the 24-hour form (R110). -/
def encHours (n : Int) : Except CodecError Byte := binToBcd n

/-- `enc_weekday` (R111). -/
def encWeekday (n : Int) : Except CodecError Byte := binToBcd (n + 1)

/-- `enc_day_of_month` (R112). -/
def encDayOfMonth (n : Int) : Except CodecError Byte := binToBcd n

/-- `enc_month` (R113). -/
def encMonth (n : Int) : Except CodecError Byte := binToBcd (n + 1)

/-- `enc_year` (R114). -/
def encYear (n : Int) : Except CodecError Byte := binToBcd (n % 100)

/-- `VALID(T)`: each field in its range, each field alone (R115, R116). -/
def valid (t : CanonicalTime) : Bool :=
  decide ((0 ≤ t.seconds ∧ t.seconds ≤ 59) ∧ (0 ≤ t.minutes ∧ t.minutes ≤ 59) ∧
    (0 ≤ t.hours ∧ t.hours ≤ 23) ∧ (0 ≤ t.weekday ∧ t.weekday ≤ 6) ∧
    (1 ≤ t.dayOfMonth ∧ t.dayOfMonth ≤ 31) ∧ (0 ≤ t.month ∧ t.month ≤ 11) ∧
    (Config.yearMin ≤ t.year ∧ t.year ≤ Config.yearMax))

end Sys2Proof.Machine
end

