-- ==== Sys2Proof/Machine/Codec.lean ====
section
/-! DEFINITION. The register unpacker and packer, DECODE and ENCODE: 42_codec.md. -/

namespace Sys2Proof.Machine

/-- Phase 1 of decode: every field converted, the first malformed nibble ends the operation (R120). -/
def unpackImage (img : RegisterImage) : Except CodecError CanonicalTime := do
  let seconds ← decSeconds img.sec
  let minutes ← decMinutes img.min
  let hours ← decHours img.hr
  let weekday ← decWeekday img.day
  let dayOfMonth ← decDayOfMonth img.date
  let month ← decMonth img.mon
  let year ← decYear img.yr
  return { seconds, minutes, hours, weekday, dayOfMonth, month, year }

/-- `decode(IMG)`: phase 1 over all seven fields, then the range check on the whole record (R120, R122). -/
def decodeImage (img : RegisterImage) : Except CodecError CanonicalTime :=
  match unpackImage img with
  | .error e => .error e
  | .ok t => if valid t then .ok t else .error .fieldOutOfRange

/-- The fields converted to register bytes (R124). -/
def packTime (t : CanonicalTime) : Except CodecError RegisterImage := do
  let sec ← encSeconds t.seconds
  let min ← encMinutes t.minutes
  let hr ← encHours t.hours
  let day ← encWeekday t.weekday
  let date ← encDayOfMonth t.dayOfMonth
  let mon ← encMonth t.month
  let yr ← encYear t.year
  return { sec, min, hr, day, date, mon, yr }

/-- `encode(T)`: the range check comes first (R124). -/
def encodeTime (t : CanonicalTime) : Except CodecError RegisterImage :=
  if valid t then packTime t else .error .fieldOutOfRange

/-- The sentinel "unknown" (R12, R68). -/
def sentinel : Int := -1

/-- A decoded time with its two constant companions (R121). -/
def timeValue (t : CanonicalTime) : Value := .time t sentinel sentinel

/-- DECODE (R120, R121). -/
def execDecode (imageIn : RegisterImage) (s : State) : Host.Outcome State Fault Refusal :=
  .next (s.finish (codecResult timeValue (decodeImage imageIn)))

/-- ENCODE (R124). -/
def execEncode (timeIn : CanonicalTime) (s : State) : Host.Outcome State Fault Refusal :=
  .next (s.finish (codecResult .image (encodeTime timeIn)))

end Sys2Proof.Machine
end

