-- ==== Sys2Proof/Machine/Session.lean ====
section
/-! DEFINITION. The session operations READ_TIME, SET_TIME and INITIALIZE: 43_session.md. -/

namespace Sys2Proof.Machine

/-- The state gate: an operation not permitted in `Uninitialized` ends at once with Refused, without a bus call
and without a look at its operand (R141, R147). -/
def whenReady (s : State) (go : Host.Outcome State Fault Refusal) : Host.Outcome State Fault Refusal :=
  match s.session with
  | .ready => go
  | .uninitialized => .next (s.finish .refused)

/-- READ_TIME (R142). -/
def execReadTime (s : State) : Host.Outcome State Fault Refusal :=
  whenReady s <|
    match memRead s imageOffset imageCount with
    | .ok bytes s' =>
      match imageOfBytes bytes with
      | some img => .next (s'.finish (sessionResult timeValue (decodeImage img)))
      | none => .refused .wrongLengthRead
    | .err code s' => .next (s'.finish (.sessionErr (.transport code)))
    | .never => .fault .busNeverAnswers
    | .outside => .fault .outsideRegisterSpace

/-- SET_TIME (R143). -/
def execSetTime (timeIn : CanonicalTime) (s : State) : Host.Outcome State Fault Refusal :=
  whenReady s <|
    match encodeTime timeIn with
    | .error e => .next (s.finish (.sessionErr (.codec e)))
    | .ok img =>
      match memWrite s imageOffset (imageBytes img) with
      | .ok _ s' => .next (s'.finish (.ok .unit))
      | .err code s' => .next (s'.finish (.sessionErr (.transport code)))
      | .never => .fault .busNeverAnswers
      | .outside => .fault .outsideRegisterSpace

/-- Bring-up with a given mode byte: one write of the whole HR byte, then `Ready` (R144, R54); the byte is a
parameter in the sense of decision D9. -/
def bringUp (mode : Byte) (s : State) : Host.Outcome State Fault Refusal :=
  match memWrite1 s hoursOffset mode with
  | .ok _ s' => .next (s'.becomeReady.finish (.ok .unit))
  | .err code s' => .next (s'.finish (.sessionErr (.transport code)))
  | .never => .fault .busNeverAnswers
  | .outside => .fault .outsideRegisterSpace

/-- INITIALIZE: permitted in both states (R144, R145). -/
def execInitSession (s : State) : Host.Outcome State Fault Refusal := bringUp modeByte s

end Sys2Proof.Machine
end

