-- ==== Sys2Proof/Machine/Dispatch.lean ====
section
/-! DEFINITION. exec: one arm per operation (30_encoding.md R70). -/

namespace Sys2Proof.Machine

def exec (i : Instr) (s : State) : Host.Outcome State Fault Refusal :=
  match i with
  | .bcd2bin byteIn => Sys2Proof.Machine.execBcd2bin byteIn s
  | .bin2bcd nIn => Sys2Proof.Machine.execBin2bcd nIn s
  | .decode imageIn => Sys2Proof.Machine.execDecode imageIn s
  | .encode timeIn => Sys2Proof.Machine.execEncode timeIn s
  | .readTime => Sys2Proof.Machine.execReadTime s
  | .setTime timeIn => Sys2Proof.Machine.execSetTime timeIn s
  | .initSession => Sys2Proof.Machine.execInitSession s

end Sys2Proof.Machine
end

