-- ==== Sys2Proof/Machine/Events.lean ====
section
/-! DEFINITION. Receiving what the host does: taking the next event and answering a reserved command: 10_state.md R24, 30_encoding.md R69 and R71, 70_reset_and_hazards.md R185. -/

namespace Sys2Proof.Machine

/-- The state in which a command's operation runs: the command has left the host's list, and the bus port stands
as the event says (R24, R26). -/
def State.receive (s : State) (t : BusTurn) (rest : List Event) : State :=
  { s with bus := t, inbox := rest }

/-- The answer to `op = 7`: status Refused, no bus call, no state change (R71). -/
def answerReserved (s : State) : Host.Outcome State Fault Refusal := .next (s.finish .refused)

/-- The host's reset event: the block is reset (R185), whatever it held. -/
def takeReset (s : State) (rest : List Event) : Host.Outcome State Fault Refusal :=
  .next { s.resetBlock with inbox := rest }

/-- No event: the block waits for the host's next operation (R185). -/
def waitForHost (s : State) : Host.Outcome State Fault Refusal := .next s

/-- A command placed as the host's next event; the bus port stays as it stands in `s`. -/
def State.presented (s : State) (c : Command) : State :=
  { s with inbox := .command c s.bus :: s.inbox }

end Sys2Proof.Machine
end

