-- ==== Sys2Proof/Machine/Step.lean ====
section
/-! DEFINITION. One step: the host's next event is taken whole, one operation is one atomic step (00_scope.md R6, 10_state.md R24 and R38, 43_session.md R150). -/

namespace Sys2Proof.Machine

/-- One step (R24, R38, R150): the next event of the host is a reset (R185), a command whose ports decode to
an operation (R70), or a command with the reserved code (R71); with none the block waits (R185). -/
def step (s : State) : Host.Outcome State Fault Refusal :=
  match s.inbox with
  | [] => waitForHost s
  | .reset :: rest => takeReset s rest
  | .command c t :: rest =>
    match decode c with
    | .ok i => exec i (s.receive t rest)
    | .error .reservedOp => answerReserved (s.receive t rest)

/-- `s` with the operation of a table word as the host's very next command, operand ports zero; the
RegisterInterface's side of the bus port stays as `s` has it (log 1, log 18). -/
def State.withFetchWord (s : State) (nbits w : Nat) : State :=
  s.presented (commandOfTableWord nbits w)

end Sys2Proof.Machine
end

