-- ==== Sys2Proof/Machine/Flags.lean ====
section
/-! DEFINITION. The block has no flags (10_state.md R25); what reports an outcome is the status word and the result ports, here as views of `State.result` and `State.session`: 30_encoding.md R68, R72, R73. -/

namespace Sys2Proof.Machine

/-- The status word of a result (R72). -/
def OpResult.status : OpResult → BitVec 3
  | .ok _ => 0
  | .sessionErr (.transport _) => 1
  | .codecErr .malformedBcd => 2
  | .sessionErr (.codec .malformedBcd) => 2
  | .codecErr .fieldOutOfRange => 3
  | .sessionErr (.codec .fieldOutOfRange) => 3
  | .refused => 4

/-- `status`: no value until the first operation completes (R72, R185). -/
def State.statusOut (s : State) : Option (BitVec 3) :=
  match s.result with
  | some r => some r.status
  | none => none

/-- `tcode_out`: meaningful only when the status is Transport (R73). -/
def State.tcodeOut (s : State) : Option Config.TCode :=
  match s.result with
  | some (.sessionErr (.transport code)) => some code
  | _ => none

/-- `n_out`, a signed port field (R70, R73). -/
def State.nOut (s : State) : Option FieldWord :=
  match s.result with
  | some (.ok (.number n)) => some (fieldWord n)
  | _ => none

/-- `byte_out` (R70, R73). -/
def State.byteOut (s : State) : Option Byte :=
  match s.result with
  | some (.ok (.byte b)) => some b
  | _ => none

/-- `time_out` (R70, R73). -/
def State.timeOut (s : State) : Option TimePort :=
  match s.result with
  | some (.ok (.time t _ _)) => some t.toPort
  | _ => none

/-- `day_of_year_out` (R68, R73). -/
def State.dayOfYearOut (s : State) : Option FieldWord :=
  match s.result with
  | some (.ok (.time _ dayOfYear _)) => some (fieldWord dayOfYear)
  | _ => none

/-- `is_dst_out` (R68, R73). -/
def State.isDstOut (s : State) : Option FieldWord :=
  match s.result with
  | some (.ok (.time _ _ isDst)) => some (fieldWord isDst)
  | _ => none

/-- `image_out` (R61, R70, R73). -/
def State.imageOut (s : State) : Option ImageWord :=
  match s.result with
  | some (.ok (.image img)) => some img.toPort
  | _ => none

/-- `state_out`: 0 for `Uninitialized`, 1 for `Ready` (R21, R73). -/
def State.stateOut (s : State) : BitVec 1 :=
  match s.session with
  | .uninitialized => 0
  | .ready => 1

end Sys2Proof.Machine
end

