-- ==== Sys2Proof/Safety.lean ====
section
/-! DEFINITION. What counts as a legal state and a safe step: 20_memory.md R46, 42_codec.md R125, 43_session.md R141, R146. -/

namespace Sys2Proof.Machine

/-- The byte is well-formed BCD (R90). -/
abbrev BcdByte (b : Byte) : Prop := hiNibble b ≤ 9 ∧ loNibble b ≤ 9

/-- What every encoded image looks like: BCD bytes, clock-halt bit, hour-mode bit and every bit DECODE ignores
clear (R64, R125). -/
abbrev CleanImage (img : RegisterImage) : Prop :=
  (BcdByte img.sec ∧ BcdByte img.min ∧ BcdByte img.hr ∧ BcdByte img.day ∧ BcdByte img.date ∧ BcdByte img.mon ∧
      BcdByte img.yr) ∧
    img.sec &&& 0x80#8 = 0 ∧ img.min &&& 0x80#8 = 0 ∧ img.hr &&& 0xC0#8 = 0 ∧ img.day &&& 0xF8#8 = 0 ∧
    img.date &&& 0xC0#8 = 0 ∧ img.mon &&& 0xE0#8 = 0

/-- The three shapes of access the block makes, and no other (R46); what is written is a clean image or the
mode byte (R125, R144). -/
def LegalCall : BusCall → Prop
  | .bulkRead offset len => offset = 0x00#8 ∧ len = 7
  | .bulkWrite offset bytes => offset = 0x00#8 ∧ ∃ img, CleanImage img ∧ bytes = imageBytes img
  | .writeSingle offset value => offset = 0x02#8 ∧ value = modeByte

/-- What a result may hold (R91, R92, R115, R121, R125). -/
def LegalResult : OpResult → Prop
  | .ok (.number n) => 0 ≤ n ∧ n ≤ 99
  | .ok (.byte b) => BcdByte b
  | .ok (.time t dayOfYear isDst) => valid t ∧ dayOfYear = -1 ∧ isDst = -1
  | .ok (.image img) => CleanImage img
  | .ok .unit => True
  | .codecErr _ => True
  | .sessionErr _ => True
  | .refused => True

/-- The invariant: the register space is in canonical form, the bus port has carried only the three shapes of
R46, the result is a legal one, and the block is `Ready` only after the bring-up write (R21, R146, R188). -/
structure State.Inv (s : State) : Prop where
  chip_wf : s.chip.wf
  calls : ∀ c ∈ s.trace, LegalCall c
  result : ∀ r ∈ s.result, LegalResult r
  bringUp : s.session = .ready → .writeSingle hoursOffset modeByte ∈ s.trace

/-- The answers on which a write stores: success, with or without a wrong length, which a write cannot have
(R41, R43). -/
abbrev BusReply.Stores (r : BusReply) : Prop := r = .ok ∨ r = .okWrongLength

/-- The image the chip holds at the moment of a call (R42, R47, R55). -/
def imageHeld (s : State) : RegisterImage :=
  ⟨s.chipByte 0, s.chipByte 1, s.chipByte 2, s.chipByte 3, s.chipByte 4, s.chipByte 5, s.chipByte 6⟩

/-- A safe step: the machine goes on. -/
def State.Runs (s : State) : Prop := ∃ s', step s = .next s'

end Sys2Proof.Machine
end

