-- ==== Sys2Proof/Certificates/Slice0/Obligations.lean ====
section
/-! DEFINITION. The statements for the provers, from the numbered rules of spec/. -/

open Sys2Proof Sys2Proof.Machine

/-! The spec's formulas in plain arithmetic, so that a statement does not repeat the model's own functions. -/

/-- The tens digit of a BCD byte, `b[7:4]` (R90). -/
def Sys2Proof.Claims.tens (b : Byte) : Nat := b.toNat / 16

/-- The units digit of a BCD byte, `b[3:0]` (R90). -/
def Sys2Proof.Claims.units (b : Byte) : Nat := b.toNat % 16

/-- `10 * b[7:4] + b[3:0]` (R90). -/
def Sys2Proof.Claims.number (b : Byte) : Int := 10 * (Claims.tens b : Int) + (Claims.units b : Int)

/-- The BCD byte of a number in [0,99] (R92). -/
def Sys2Proof.Claims.digits (n : Int) : Byte := BitVec.ofNat 8 (16 * (n.toNat / 10) + n.toNat % 10)

/-- The ranges of R115. -/
def Sys2Proof.Claims.InRange (t : CanonicalTime) : Prop :=
  0 ≤ t.seconds ∧ t.seconds ≤ 59 ∧ 0 ≤ t.minutes ∧ t.minutes ≤ 59 ∧ 0 ≤ t.hours ∧ t.hours ≤ 23 ∧
    0 ≤ t.weekday ∧ t.weekday ≤ 6 ∧ 1 ≤ t.dayOfMonth ∧ t.dayOfMonth ≤ 31 ∧ 0 ≤ t.month ∧ t.month ≤ 11 ∧
    100 ≤ t.year ∧ t.year ≤ 199

/-- The part of HR that is read as a number, by bit 6 (R103). -/
def Sys2Proof.Claims.hourBits (hr : Byte) : Byte := if hr.getLsbD 6 then hr &&& 0x1F#8 else hr &&& 0x3F#8

/-- Some consumed nibble is above 9: the nibbles that R162 lists. -/
def Sys2Proof.Claims.Malformed (img : RegisterImage) : Prop :=
  9 < Claims.units img.sec ∨ 9 < Claims.units img.min ∨ 9 < Claims.units img.hr ∨ 9 < Claims.units img.date ∨
    9 < Claims.units img.mon ∨ 9 < Claims.tens img.yr ∨ 9 < Claims.units img.yr

/-- The seven values that decode computes from an image (R62, R101 to R107). -/
def Sys2Proof.Claims.readOut (img : RegisterImage) : CanonicalTime where
  seconds := Claims.number (img.sec &&& 0x7F#8)
  minutes := Claims.number (img.min &&& 0x7F#8)
  hours := Claims.number (Claims.hourBits img.hr)
  weekday := Claims.number (img.day &&& 0x07#8) - 1
  dayOfMonth := Claims.number (img.date &&& 0x3F#8)
  month := Claims.number (img.mon &&& 0x1F#8) - 1
  year := Claims.number img.yr + 100

/-- The image that encode builds from a time in range (R124). -/
def Sys2Proof.Claims.packed (t : CanonicalTime) : RegisterImage where
  sec := Claims.digits t.seconds
  min := Claims.digits t.minutes
  hr := Claims.digits t.hours
  day := Claims.digits (t.weekday + 1)
  date := Claims.digits t.dayOfMonth
  mon := Claims.digits (t.month + 1)
  yr := Claims.digits (t.year % 100)

/-- The bits of an image that decode looks at agree (R62, R63). -/
def Sys2Proof.Claims.SameConsumed (x y : RegisterImage) : Prop :=
  x.sec &&& 0x7F#8 = y.sec &&& 0x7F#8 ∧ x.min &&& 0x7F#8 = y.min &&& 0x7F#8 ∧
    x.hr.getLsbD 6 = y.hr.getLsbD 6 ∧ Claims.hourBits x.hr = Claims.hourBits y.hr ∧
    x.day &&& 0x07#8 = y.day &&& 0x07#8 ∧ x.date &&& 0x3F#8 = y.date &&& 0x3F#8 ∧
    x.mon &&& 0x1F#8 = y.mon &&& 0x1F#8 ∧ x.yr = y.yr

/-- The chip's own change that makes registers 0 to 6 hold an image. -/
def Sys2Proof.Claims.driftTo (img : RegisterImage) : List (Offset × Byte) :=
  [(0, img.sec), (1, img.min), (2, img.hr), (3, img.day), (4, img.date), (5, img.mon), (6, img.yr)]

/-- A bus on which nothing has changed by itself and the next call succeeds. -/
def Sys2Proof.Claims.quietBus : BusTurn := ⟨[], .ok⟩

/-- The codec operations (R70). -/
def Sys2Proof.Claims.IsCodec : Instr → Prop
  | .bcd2bin _ => True
  | .bin2bcd _ => True
  | .decode _ => True
  | .encode _ => True
  | .readTime => False
  | .setTime _ => False
  | .initSession => False

/-- The result ports of R73 but `state_out`; a port that is not named carries no value. -/
structure Sys2Proof.Claims.Ports where
  status : Option (BitVec 3) := none
  nOut : Option FieldWord := none
  byteOut : Option Byte := none
  timeOut : Option TimePort := none
  dayOfYearOut : Option FieldWord := none
  isDstOut : Option FieldWord := none
  imageOut : Option ImageWord := none
  tcodeOut : Option Config.TCode := none
  deriving DecidableEq, Repr

/-- What all the result ports of a state carry. -/
def Sys2Proof.Claims.ports (s : State) : Claims.Ports where
  status := s.statusOut
  nOut := s.nOut
  byteOut := s.byteOut
  timeOut := s.timeOut
  dayOfYearOut := s.dayOfYearOut
  isDstOut := s.isDstOut
  imageOut := s.imageOut
  tcodeOut := s.tcodeOut

/-- The result ports with a time on them: status OK, the seven fields, and the two sentinels as all ones (R68). -/
def Sys2Proof.Claims.timePorts (t : CanonicalTime) : Claims.Ports where
  status := some 0
  timeOut := some t.toPort
  dayOfYearOut := some 0xFFFFFFFF#32
  isDstOut := some 0xFFFFFFFF#32

/-- A bus answer with its code, if it has one, put through a function. -/
def Sys2Proof.Claims.recodedReply (f : Config.TCode → Config.TCode) : BusReply → BusReply
  | .err code => .err (f code)
  | .ok => .ok
  | .okWrongLength => .okWrongLength
  | .noAnswer => .noAnswer

/-- A result with its transport code, if it has one, put through a function. -/
def Sys2Proof.Claims.recodedResult (f : Config.TCode → Config.TCode) : OpResult → OpResult
  | .sessionErr (.transport code) => .sessionErr (.transport (f code))
  | .sessionErr (.codec e) => .sessionErr (.codec e)
  | .codecErr e => .codecErr e
  | .ok v => .ok v
  | .refused => .refused

/-- The status codes an operation can end with, by its `op` code: the "yes" entries of R165 under the numbers of
R72. -/
def Sys2Proof.Claims.outcomes : Nat → List (BitVec 3)
  | 0 => [0, 2]
  | 1 => [0, 3]
  | 2 => [0, 2, 3]
  | 3 => [0, 3]
  | 4 => [0, 1, 2, 3, 4]
  | 5 => [0, 1, 3, 4]
  | 6 => [0, 1]
  | _ => [4]

/-! ## The BCD primitives -/

/-- BCD2BIN gives `10 * hi + lo` when both nibbles are digits, in [0,99], and MalformedBcd otherwise, changing
nothing else (no flag, no state, no bus call); `op = 0` (a code of the spec's own decision D3); and the masked bytes
DECODE converts have a high nibble of at most 7, but for the year. -/
def Obligations.Bcd2binReadsTwoDigits : Prop :=
  (∀ (b : Byte) (s : State), Claims.tens b ≤ 9 → Claims.units b ≤ 9 →
    exec (.bcd2bin b) s = .next { s with result := some (.ok (.number (Claims.number b))) } ∧
      0 ≤ Claims.number b ∧ Claims.number b ≤ 99) ∧
  (∀ (b : Byte) (s : State), 9 < Claims.tens b ∨ 9 < Claims.units b →
    exec (.bcd2bin b) s = .next { s with result := some (.codecErr .malformedBcd) }) ∧
  (∀ b : Byte, (encode (.bcd2bin b)).op = 0) ∧
  (∀ b : Byte, Claims.tens (consumedSec b) ≤ 7 ∧ Claims.tens (consumedMin b) ≤ 7 ∧
    Claims.tens (consumedHr b) ≤ 7 ∧ Claims.tens (consumedDay b) ≤ 7 ∧ Claims.tens (consumedDate b) ≤ 7 ∧
    Claims.tens (consumedMon b) ≤ 7)

/-- BIN2BCD: for `n` in [0,99] the byte of the two digits; otherwise FieldOutOfRange, which is the spec's own
decision D16; nothing else changes; inside ENCODE the error cannot arise. `op = 1` (decision D3). -/
def Obligations.Bin2bcdWritesTwoDigits : Prop :=
  (∀ (n : Int) (s : State), 0 ≤ n → n ≤ 99 →
    exec (.bin2bcd n) s = .next { s with result := some (.ok (.byte (Claims.digits n))) } ∧
      Claims.tens (Claims.digits n) = n.toNat / 10 ∧ Claims.units (Claims.digits n) = n.toNat % 10) ∧
  (∀ (n : Int) (s : State), n < 0 ∨ 99 < n →
    exec (.bin2bcd n) s = .next { s with result := some (.codecErr .fieldOutOfRange) }) ∧
  (∀ t : CanonicalTime, Claims.InRange t → ∃ img, packTime t = .ok img) ∧
  (∀ n : Int, (encode (.bin2bcd n)).op = 1)

/-- The BCD law, and by the spec's own derivation in both directions on the whole domain. -/
def Obligations.BcdConversionsInverse : Prop :=
  (∀ n : Int, 0 ≤ n → n ≤ 99 → ∃ b, binToBcd n = .ok b ∧ bcdToBin b = .ok n) ∧
  (∀ (b : Byte) (n : Int), bcdToBin b = .ok n → 0 ≤ n ∧ n ≤ 99 ∧ binToBcd n = .ok b)

/-- `bin_to_bcd` is strictly increasing on [0,99], by the spec's own derivation. -/
def Obligations.BinToBcdIncreasing : Prop :=
  ∀ (n m : Int) (b c : Byte), n < m → binToBcd n = .ok b → binToBcd m = .ok c → b.toNat < c.toNat

/-! ## The field translators -/

/-- R101 to R107: each decode translator on every byte, its value or MalformedBcd. The ranges of the results are
those of the rules. -/
def Obligations.DecodeTranslatorsByField : Prop :=
  (∀ b : Byte, decSeconds b =
    if 9 < Claims.units b then .error .malformedBcd else .ok (Claims.number (b &&& 0x7F#8))) ∧
  (∀ b : Byte, decMinutes b =
    if 9 < Claims.units b then .error .malformedBcd else .ok (Claims.number (b &&& 0x7F#8))) ∧
  (∀ b : Byte, decHours b =
    if 9 < Claims.units b then .error .malformedBcd
    else if b &&& 0x40#8 ≠ 0 then .ok (Claims.number (b &&& 0x1F#8)) else .ok (Claims.number (b &&& 0x3F#8))) ∧
  (∀ b : Byte, decWeekday b = .ok (Claims.number (b &&& 0x07#8) - 1)) ∧
  (∀ b : Byte, decDayOfMonth b =
    if 9 < Claims.units b then .error .malformedBcd else .ok (Claims.number (b &&& 0x3F#8))) ∧
  (∀ b : Byte, decMonth b =
    if 9 < Claims.units b then .error .malformedBcd else .ok (Claims.number (b &&& 0x1F#8) - 1)) ∧
  (∀ b : Byte, decYear b =
    if 9 < Claims.tens b ∨ 9 < Claims.units b then .error .malformedBcd else .ok (Claims.number b + 100))

/-- The values a decode translator can return, by the spec's own derivation. -/
def Obligations.DecodeTranslatorRanges : Prop :=
  (∀ (b : Byte) (n : Int), decSeconds b = .ok n → 0 ≤ n ∧ n ≤ 79) ∧
  (∀ (b : Byte) (n : Int), decMinutes b = .ok n → 0 ≤ n ∧ n ≤ 79) ∧
  (∀ (b : Byte) (n : Int), decHours b = .ok n →
    0 ≤ n ∧ (b.getLsbD 6 = true → n ≤ 19) ∧ (b.getLsbD 6 = false → n ≤ 39)) ∧
  (∀ (b : Byte) (n : Int), decWeekday b = .ok n → -1 ≤ n ∧ n ≤ 6) ∧
  (∀ (b : Byte) (n : Int), decDayOfMonth b = .ok n → 0 ≤ n ∧ n ≤ 39) ∧
  (∀ (b : Byte) (n : Int), decMonth b = .ok n → -1 ≤ n ∧ n ≤ 18) ∧
  (∀ (b : Byte) (n : Int), decYear b = .ok n → 100 ≤ n ∧ n ≤ 199)

/-- R108 to R113: each encode translator on its field's range, its byte and the range of its byte; SEC keeps bit 7
clear; HR keeps bits 7 and 6 clear and has bit 5 exactly for 20 to 23. -/
def Obligations.EncodeTranslatorsByField : Prop :=
  (∀ n : Int, 0 ≤ n → n ≤ 59 → encSeconds n = .ok (Claims.digits n) ∧ (Claims.digits n).getLsbD 7 = false) ∧
  (∀ n : Int, 0 ≤ n → n ≤ 59 → encMinutes n = .ok (Claims.digits n)) ∧
  (∀ n : Int, 0 ≤ n → n ≤ 23 → encHours n = .ok (Claims.digits n) ∧ Claims.digits n &&& 0xC0#8 = 0 ∧
    ((Claims.digits n).getLsbD 5 = true ↔ 20 ≤ n)) ∧
  (∀ n : Int, 0 ≤ n → n ≤ 6 → encWeekday n = .ok (Claims.digits (n + 1))) ∧
  (∀ n : Int, 1 ≤ n → n ≤ 31 → encDayOfMonth n = .ok (Claims.digits n)) ∧
  (∀ n : Int, 0 ≤ n → n ≤ 11 → encMonth n = .ok (Claims.digits (n + 1)))

/-- The year translator on the year range of decision D7: the byte of the two digits, read back as the same year
(the fixed century). -/
def Obligations.YearTranslatorsInverse : Prop :=
  (∀ n : Int, 100 ≤ n → n ≤ 199 →
    encYear n = .ok (Claims.digits (n - 100)) ∧ decYear (Claims.digits (n - 100)) = .ok n) ∧
  (∀ (b : Byte) (n : Int), decYear b = .ok n → encYear n = .ok b)

/-- `VALID` holds exactly on the seven ranges (the year range is the spec's own decision D7), each field alone;
it decides ENCODE and bounds every DECODE. -/
def Obligations.ValidIsTheSevenRanges : Prop :=
  (∀ t : CanonicalTime, valid t = true ↔ Claims.InRange t) ∧
  (∀ t : CanonicalTime, ¬ Claims.InRange t → encodeTime t = .error .fieldOutOfRange) ∧
  (∀ (img : RegisterImage) (t : CanonicalTime), decodeImage img = .ok t → Claims.InRange t)

/-! ## DECODE and ENCODE -/

/-- DECODE of any image, changing nothing but the result: MalformedBcd if a consumed nibble is above 9, else
FieldOutOfRange if a value is out of range, else the time with the two sentinels; that the first wins where both
apply is the spec's own decision D10. `op = 2` (decision D3). -/
def Obligations.DecodeUnpacksImage : Prop :=
  (∀ (img : RegisterImage) (s : State), Claims.Malformed img →
    exec (.decode img) s = .next { s with result := some (.codecErr .malformedBcd) }) ∧
  (∀ (img : RegisterImage) (s : State), ¬ Claims.Malformed img → ¬ Claims.InRange (Claims.readOut img) →
    exec (.decode img) s = .next { s with result := some (.codecErr .fieldOutOfRange) }) ∧
  (∀ (img : RegisterImage) (s : State), ¬ Claims.Malformed img → Claims.InRange (Claims.readOut img) →
    exec (.decode img) s = .next { s with result := some (.ok (.time (Claims.readOut img) (-1) (-1))) }) ∧
  (∀ img : RegisterImage, (encode (.decode img)).op = 2)

/-- R121 and R123: a decoded time is exactly the values of its masked digits, with the sentinels -1 and -1 and
nothing repaired: no nibble above 9 was computed with, no value is out of range; otherwise DECODE gives an error,
which carries no sentinel. -/
def Obligations.DecodeNeverRepairs : Prop :=
  (∀ (img : RegisterImage) (s s' : State) (t : CanonicalTime) (dayOfYear isDst : Int),
    exec (.decode img) s = .next s' → s'.result = some (.ok (.time t dayOfYear isDst)) →
    ¬ Claims.Malformed img ∧ Claims.InRange t ∧ t = Claims.readOut img ∧ dayOfYear = -1 ∧ isDst = -1) ∧
  (∀ (img : RegisterImage) (s : State), Claims.Malformed img ∨ ¬ Claims.InRange (Claims.readOut img) →
    ∃ s' e, exec (.decode img) s = .next s' ∧ s'.result = some (.codecErr e) ∧ s'.dayOfYearOut = none ∧
      s'.isDstOut = none ∧ s'.timeOut = none)

/-- ENCODE of any time, changing nothing but the result: FieldOutOfRange if a field is out of range (for the year,
the range of decision D7), nothing else ever, else the image of its digits. `op = 3` (decision D3). -/
def Obligations.EncodePacksTime : Prop :=
  (∀ (t : CanonicalTime) (s : State), Claims.InRange t →
    exec (.encode t) s = .next { s with result := some (.ok (.image (Claims.packed t))) }) ∧
  (∀ (t : CanonicalTime) (s : State), ¬ Claims.InRange t →
    exec (.encode t) s = .next { s with result := some (.codecErr .fieldOutOfRange) }) ∧
  (∀ t : CanonicalTime, (encode (.encode t)).op = 3)

/-- Every image ENCODE returns is BCD with clock-halt, hour-mode and all ignored bits clear (the spec's own
derivation). -/
def Obligations.EncodedImageClean : Prop :=
  ∀ (t : CanonicalTime) (img : RegisterImage), encodeTime t = .ok img → CleanImage img

/-- Round trip: every valid time decodes back from its image (on the year range of decision D7). -/
def Obligations.DecodeOfEncodeIsIdentity : Prop :=
  ∀ t : CanonicalTime, Claims.InRange t → ∃ img, encodeTime t = .ok img ∧ decodeImage img = .ok t

/-- Reverse round trip (the spec's own derivation): a decoded image encodes back with its ignored bits cleared; an
image in 12-hour mode comes back with the mode bit cleared too, its numeral as a 24-hour byte. -/
def Obligations.EncodeOfDecodeClearsIgnored : Prop :=
  ∀ (img : RegisterImage) (t : CanonicalTime), decodeImage img = .ok t →
    encodeTime t = .ok ⟨img.sec &&& 0x7F#8, img.min &&& 0x7F#8, Claims.hourBits img.hr, img.day &&& 0x07#8,
      img.date &&& 0x3F#8, img.mon &&& 0x1F#8, img.yr⟩

/-- Total on the valid times (the year range is decision D7), decodable on every encoded image, order-preserving
field by field, an error outside. -/
def Obligations.CodecTotalAndMonotone : Prop :=
  (∀ t : CanonicalTime, Claims.InRange t → ∃ img, encodeTime t = .ok img) ∧
  (∀ (t : CanonicalTime) (img : RegisterImage), encodeTime t = .ok img → ∃ t', decodeImage img = .ok t') ∧
  (∀ (t t' : CanonicalTime) (img img' : RegisterImage), encodeTime t = .ok img → encodeTime t' = .ok img' →
    (t.seconds < t'.seconds → img.sec.toNat < img'.sec.toNat) ∧
    (t.minutes < t'.minutes → img.min.toNat < img'.min.toNat) ∧
    (t.hours < t'.hours → img.hr.toNat < img'.hr.toNat) ∧
    (t.weekday < t'.weekday → img.day.toNat < img'.day.toNat) ∧
    (t.dayOfMonth < t'.dayOfMonth → img.date.toNat < img'.date.toNat) ∧
    (t.month < t'.month → img.mon.toNat < img'.mon.toNat) ∧
    (t.year < t'.year → img.yr.toNat < img'.yr.toNat)) ∧
  (∀ t : CanonicalTime, ¬ Claims.InRange t → ∃ e, encodeTime t = .error e) ∧
  (∀ img : RegisterImage, Claims.Malformed img ∨ ¬ Claims.InRange (Claims.readOut img) →
    ∃ e, decodeImage img = .error e)

/-- Bits outside the masks change neither the value nor the error, in DECODE and in READ_TIME (the spec's own
derivation). -/
def Obligations.IgnoredBitsHaveNoEffect : Prop :=
  (∀ x y : RegisterImage, Claims.SameConsumed x y → decodeImage x = decodeImage y) ∧
  (∀ s s' t t' : State, s.session = .ready → s'.session = .ready → s.bus.reply = .ok → s'.bus.reply = .ok →
    Claims.SameConsumed (imageHeld s) (imageHeld s') →
    exec .readTime s = .next t → exec .readTime s' = .next t' → t.result = t'.result)

/-- In 12-hour mode the hours are the raw numeral in [0,19], bit 5 is neither used nor reported, and the result is the
one of the 24-hour image of that numeral: it does not tell the path. That the numeral passes the [0,23] check always,
with no further check, is the spec's own decision D12 (log 28). -/
def Obligations.TwelveHourReadsRawNumeral : Prop :=
  ∀ img : RegisterImage, img.hr.getLsbD 6 = true →
    (∀ t, decodeImage img = .ok t → t.hours = Claims.number (img.hr &&& 0x1F#8)) ∧
    (∀ n, decHours img.hr = .ok n → 0 ≤ n ∧ n ≤ 19) ∧
    decodeImage img = decodeImage { img with hr := img.hr &&& 0x1F#8 } ∧
    decodeImage img = decodeImage { img with hr := img.hr ^^^ 0x20#8 }

/-- R22: a codec operation's answer depends on its argument alone, in any state, and it changes nothing but the
result. -/
def Obligations.CodecOperationsArePure : Prop :=
  ∀ i : Instr, Claims.IsCodec i → ∃ r, ∀ s : State, exec i s = .next { s with result := some r }

/-! ## The session operations -/

/-- READ_TIME in `Uninitialized` is Refused with no call (the spec's own decision D13); in `Ready` it
makes exactly one `bulk_read(0, 7)`; a transport error ends it with nothing decoded; otherwise the chip's seven
bytes are decoded, and the codec's error or the time with the sentinels is the result. The session state and every
register stay as they are; that a read leaves the chip undisturbed is the model's choice (log 29), and so is the
counter of free bytes (log 5). `op = 4` (decision D3). -/
def Obligations.ReadTimeReadsOnce : Prop :=
  (∀ s : State, s.session = .uninitialized → exec .readTime s = .next { s with result := some .refused }) ∧
  (∀ (s : State) (code : Config.TCode), s.session = .ready → s.bus.reply = .err code →
    exec .readTime s = .next { s with
      chip := s.chipNow, trace := s.trace ++ [.bulkRead 0 7],
      result := some (.sessionErr (.transport code)) }) ∧
  (∀ (s : State) (e : CodecError), s.session = .ready → s.bus.reply = .ok →
    decodeImage (imageHeld s) = .error e →
    exec .readTime s = .next { s with
      chip := s.chipNow, trace := s.trace ++ [.bulkRead 0 7],
      freeCount := s.freeCount + 1,
      result := some (.sessionErr (.codec e)) }) ∧
  (∀ (s : State) (t : CanonicalTime), s.session = .ready → s.bus.reply = .ok →
    decodeImage (imageHeld s) = .ok t →
    exec .readTime s = .next { s with
      chip := s.chipNow, trace := s.trace ++ [.bulkRead 0 7],
      freeCount := s.freeCount + 1,
      result := some (.ok (.time t (-1) (-1))) }) ∧
  (encode .readTime).op = 4

/-- Whatever was written before, a read can deliver any seven bytes, and its result is their decoding (decision
D20, model's form of the input in log 2). -/
def Obligations.ReadDeliversAnyBytes : Prop :=
  ∀ (s : State) (img : RegisterImage), s.session = .ready →
    ∃ s', exec .readTime { s with bus := ⟨Claims.driftTo img, .ok⟩ } = .next s' ∧
      s'.trace = s.trace ++ [.bulkRead 0 7] ∧ s'.session = .ready ∧
      (∀ t, decodeImage img = .ok t → s'.result = some (.ok (.time t (-1) (-1)))) ∧
      (∀ e, decodeImage img = .error e → s'.result = some (.sessionErr (.codec e)))

/-- SET_TIME in `Uninitialized` is Refused whatever the time (the spec's own decision D13); in
`Ready`, an invalid time is `Codec(FieldOutOfRange)` without touching the bus; a valid one is written by exactly
one `bulk_write(0, image)`: on success the seven offsets hold the image and every other offset what it held, on a
transport error those seven hold anything. `op = 5` (decision D3). -/
def Obligations.SetTimeWritesOnce : Prop :=
  (∀ (s : State) (t : CanonicalTime), s.session = .uninitialized →
    exec (.setTime t) s = .next { s with result := some .refused }) ∧
  (∀ (s : State) (t : CanonicalTime), s.session = .ready → ¬ Claims.InRange t →
    exec (.setTime t) s = .next { s with result := some (.sessionErr (.codec .fieldOutOfRange)) }) ∧
  (∀ (s : State) (t : CanonicalTime), s.session = .ready → Claims.InRange t → s.bus.reply.Stores →
    ∃ m, exec (.setTime t) s = .next { s with
      chip := m, result := some (.ok .unit),
      trace := s.trace ++ [.bulkWrite 0 (imageBytes (Claims.packed t))] } ∧
      (∀ i, i < 7 → m.read? (imageOffset.toNat + i) = (imageBytes (Claims.packed t))[i]?) ∧
      (∀ a, a < imageOffset.toNat ∨ imageOffset.toNat + 7 ≤ a → m.read? a = s.chipNow.read? a)) ∧
  (∀ (s : State) (t : CanonicalTime) (code : Config.TCode), s.session = .ready → Claims.InRange t →
    s.bus.reply = .err code →
    ∃ m, exec (.setTime t) s = .next { s with
      chip := m, result := some (.sessionErr (.transport code)),
      trace := s.trace ++ [.bulkWrite 0 (imageBytes (Claims.packed t))] } ∧
      (∀ i, i < 7 → m.read? (imageOffset.toNat + i) = none) ∧
      (∀ a, a < imageOffset.toNat ∨ imageOffset.toNat + 7 ≤ a → m.read? a = s.chipNow.read? a)) ∧
  (∀ t : CanonicalTime, (encode (.setTime t)).op = 5)

/-- INITIALIZE in either state (repeating it in `Ready` is decision D22): exactly one `write_single(2, 0x00)` (the
byte is decision D9, log 9); on success HR holds it and the block is `Ready`; on a transport error the session
state is unchanged and HR holds anything; every other offset holds what it held. `op = 6` (decision D3). -/
def Obligations.InitializeWritesModeByte : Prop :=
  (∀ s : State, s.bus.reply.Stores →
    ∃ m, exec .initSession s = .next { s with
      session := .ready, chip := m, result := some (.ok .unit),
      trace := s.trace ++ [.writeSingle 2 0x00#8] } ∧
      m.read? hoursOffset.toNat = some 0x00#8 ∧
      (∀ a, a ≠ hoursOffset.toNat → m.read? a = s.chipNow.read? a)) ∧
  (∀ (s : State) (code : Config.TCode), s.bus.reply = .err code →
    ∃ m, exec .initSession s = .next { s with
      chip := m, result := some (.sessionErr (.transport code)),
      trace := s.trace ++ [.writeSingle 2 0x00#8] } ∧
      m.read? hoursOffset.toNat = none ∧
      (∀ a, a ≠ hoursOffset.toNat → m.read? a = s.chipNow.read? a)) ∧
  (encode .initSession).op = 6

/-- Whatever byte with bit 6 clear bring-up writes (decision D9), a READ_TIME that follows with the chip unchanged
and succeeds returns its numeral as the hours; with the spec's byte, 0 (the spec's own derivation). -/
def Obligations.BringUpSetsTheHour : Prop :=
  (∀ (s : State) (mode : Byte), mode.getLsbD 6 = false → s.bus.reply = .ok →
    ∃ s1, bringUp mode s = .next s1 ∧ s1.session = .ready ∧ s1.chip.read? 2 = some mode ∧
      ∀ s2 t, exec .readTime { s1 with bus := Claims.quietBus } = .next s2 →
        s2.result = some (.ok (.time t (-1) (-1))) → t.hours = Claims.number (mode &&& 0x3F#8)) ∧
  (∀ s : State, s.bus.reply = .ok →
    ∃ s1, exec .initSession s = .next s1 ∧
      ∀ s2 t, exec .readTime { s1 with bus := Claims.quietBus } = .next s2 →
        s2.result = some (.ok (.time t (-1) (-1))) → t.hours = 0)

/-- READ_TIME and SET_TIME are Refused in `Uninitialized`, with no call, no state change and no look at the operand
(decision D13); no other operation is refused, and none is in `Ready`. -/
def Obligations.GateRefusesBeforeBringUp : Prop :=
  (∀ s : State, s.session = .uninitialized →
    exec .readTime s = .next { s with result := some .refused } ∧
    ∀ t, exec (.setTime t) s = .next { s with result := some .refused }) ∧
  (∀ (i : Instr) (s s' : State), exec i s = .next s' → s'.result = some .refused →
    s.session = .uninitialized ∧ (i = .readTime ∨ ∃ t, i = .setTime t))

/-- The complete list of state transitions, the reserved code included (its rows for Refused are the spec's own
decisions D4 and D13), and that only a reset leaves `Ready`. -/
def Obligations.SessionStateTransitions : Prop :=
  (∀ s s' : State, exec .initSession s = .next s' →
    (s'.result = some (.ok .unit) ∧ s'.session = .ready) ∨
    (∃ code, s'.result = some (.sessionErr (.transport code)) ∧ s'.session = s.session)) ∧
  (∀ (i : Instr) (s s' : State), i ≠ .initSession → exec i s = .next s' → s'.session = s.session) ∧
  (∀ s s' : State, s.session = .uninitialized → exec .readTime s = .next s' → s'.result = some .refused) ∧
  (∀ (t : CanonicalTime) (s s' : State), s.session = .uninitialized → exec (.setTime t) s = .next s' →
    s'.result = some .refused) ∧
  (∀ (s s' : State) (c : Command) (t : BusTurn) (rest : List Event), s.inbox = .command c t :: rest →
    c.op = 7 → step s = .next s' → s'.session = s.session) ∧
  (∀ s s' : State, step s = .next s' → s.session = .ready → s'.session = .uninitialized →
    ∃ rest, s.inbox = .reset :: rest)

/-- Each operation makes at most one call, of its one shape; the codec operations make none, nor does a SET_TIME that
fails in the codec. That READ_TIME and SET_TIME make none in `Uninitialized`, where they are Refused, is the spec's own
decision D13 (log 12). -/
def Obligations.AtMostOneCallOfItsShape : Prop :=
  (∀ s s' : State, exec .readTime s = .next s' →
    s'.trace = if s.session = .ready then s.trace ++ [.bulkRead 0 7] else s.trace) ∧
  (∀ (t : CanonicalTime) (s s' : State), exec (.setTime t) s = .next s' →
    s'.trace = s.trace ∨
    ∃ img, s.session = .ready ∧ encodeTime t = .ok img ∧ (imageBytes img).length = 7 ∧
      s'.trace = s.trace ++ [.bulkWrite 0 (imageBytes img)]) ∧
  (∀ (t : CanonicalTime) (s s' : State) (img : RegisterImage), s.session = .ready → encodeTime t = .ok img →
    exec (.setTime t) s = .next s' → s'.trace = s.trace ++ [.bulkWrite 0 (imageBytes img)]) ∧
  (∀ s s' : State, exec .initSession s = .next s' → s'.trace = s.trace ++ [.writeSingle 2 modeByte]) ∧
  (∀ (i : Instr) (s s' : State), Claims.IsCodec i → exec i s = .next s' → s'.trace = s.trace)

/-- Offsets above 6 are never touched: after any operation they hold what they held, but for the chip's own changes
(log 19); that a read disturbs none is the model's choice (log 29). -/
def Obligations.OffsetsAboveSixUntouched : Prop :=
  ∀ (i : Instr) (s s' : State) (a : Nat), 6 < a → exec i s = .next s' →
    s'.chip.read? a = s.chip.read? a ∨ s'.chip.read? a = s.chipNow.read? a

/-- A SET_TIME followed by a READ_TIME with the chip unchanged in between returns the very time that was set
(derived; the premise that the chip stands still is explicit, since the spec ties no read to a write). -/
def Obligations.SetThenReadReturnsTheTime : Prop :=
  ∀ (s : State) (t : CanonicalTime), s.session = .ready → Claims.InRange t → s.bus.reply = .ok →
    ∃ s1 s2, exec (.setTime t) s = .next s1 ∧ exec .readTime { s1 with bus := Claims.quietBus } = .next s2 ∧
      s2.result = some (.ok (.time t (-1) (-1)))

/-- A successful SET_TIME leaves the clock-halt flag, the hour-mode bit and every ignored bit of registers 0 to 6
clear on the chip (the spec's own derivation). -/
def Obligations.SetTimeClearsFlagBits : Prop :=
  ∀ (s : State) (t : CanonicalTime), s.session = .ready → Claims.InRange t → s.bus.reply = .ok →
    ∃ s' img, exec (.setTime t) s = .next s' ∧ CleanImage img ∧
      clockHalt img.sec = false ∧ mode12 img.hr = false ∧
      ∀ i, i < 7 → s'.chip.read? i = (imageBytes img)[i]?

/-- Before bring-up no time data crosses the bus: a step from `Uninitialized` adds nothing to the bus trace but the
bring-up write. That READ_TIME and SET_TIME put nothing on the bus there is the spec's own decision D13 (log 12), and
the trace is the model's record (log 13). -/
def Obligations.OnlyBringUpBeforeReady : Prop :=
  ∀ s s' : State, s.session = .uninitialized → step s = .next s' →
    s'.trace = s.trace ∨ s'.trace = s.trace ++ [.writeSingle hoursOffset modeByte]

/-- Nothing but READ_TIME learns what the chip holds: any other operation gives, on two states that differ only in
the chip, its own changes and the free bytes, the same result, session state and bus traffic. -/
def Obligations.ChipInvisibleExceptToReadTime : Prop :=
  ∀ (i : Instr) (s t s' : State), i ≠ .readTime → s.session = t.session → s.trace = t.trace →
    s.bus.reply = t.bus.reply → exec i s = .next s' →
    ∃ t', exec i t = .next t' ∧ s'.session = t'.session ∧ s'.result = t'.result ∧ s'.trace = t'.trace

/-! ## Errors -/

/-- The status codes of the result kinds (the spec's own decision D5), and 5 to 7 never. -/
def Obligations.StatusWordOfResult : Prop :=
  (∀ v, (OpResult.ok v).status = 0) ∧
  (∀ code, (OpResult.sessionErr (.transport code)).status = 1) ∧
  (OpResult.codecErr .malformedBcd).status = 2 ∧ (OpResult.sessionErr (.codec .malformedBcd)).status = 2 ∧
  (OpResult.codecErr .fieldOutOfRange).status = 3 ∧ (OpResult.sessionErr (.codec .fieldOutOfRange)).status = 3 ∧
  OpResult.refused.status = 4 ∧ ∀ r : OpResult, r.status.toNat ≤ 4

/-- Which operation can end with which outcome: never with another, and with each of them in some state (the
spec's own derivation, decisions D5, D13). -/
def Obligations.OutcomeTable : Prop :=
  (∀ (i : Instr) (s s' : State), exec i s = .next s' →
    ∃ st, s'.statusOut = some st ∧ st ∈ Claims.outcomes (encode i).op.toNat) ∧
  (∀ k, k < 7 → ∀ st ∈ Claims.outcomes k, ∃ i s s', i.wellFormed = true ∧ (encode i).op.toNat = k ∧
    exec i s = .next s' ∧ s'.statusOut = some st)

/-- R162: MalformedBcd is raised by BCD2BIN and DECODE, and by READ_TIME as `Codec(MalformedBcd)`, and never by
another operation; its cause is a nibble above 9 of the byte, or one of the consumed nibbles of the image, never one
of DAY. -/
def Obligations.MalformedBcdRaisedByReaders : Prop :=
  (∀ (i : Instr) (s s' : State), exec i s = .next s' → s'.result = some (.codecErr .malformedBcd) →
    (∃ b, i = .bcd2bin b ∧ (9 < Claims.tens b ∨ 9 < Claims.units b)) ∨
    (∃ img, i = .decode img ∧ Claims.Malformed img)) ∧
  (∀ (i : Instr) (s s' : State), exec i s = .next s' → s'.result = some (.sessionErr (.codec .malformedBcd)) →
    i = .readTime ∧ Claims.Malformed (imageHeld s)) ∧
  (∀ (b : Byte) (s s' : State), 9 < Claims.tens b ∨ 9 < Claims.units b → exec (.bcd2bin b) s = .next s' →
    s'.result = some (.codecErr .malformedBcd)) ∧
  (∃ img s s', exec (.decode img) s = .next s' ∧ s'.result = some (.codecErr .malformedBcd)) ∧
  (∃ s s', exec .readTime s = .next s' ∧ s'.result = some (.sessionErr (.codec .malformedBcd)))

/-- An operation that ends in an error leaves the session state; a codec error in SET_TIME made no call and touched no
register; a transport error in READ_TIME took no byte, so the model's counter of free bytes stands still (log 5), and
left the chip as it was at the call (the model's choice, log 29); a transport error on a write leaves the written
registers undetermined (the model's reading, log 6). -/
def Obligations.ErrorsLeaveSessionState : Prop :=
  (∀ (i : Instr) (s s' : State) (r : OpResult), exec i s = .next s' → s'.result = some r → r.status ≠ 0 →
    s'.session = s.session) ∧
  (∀ (t : CanonicalTime) (s s' : State) (e : CodecError), exec (.setTime t) s = .next s' →
    s'.result = some (.sessionErr (.codec e)) → s'.trace = s.trace ∧ s'.chip = s.chip) ∧
  (∀ (s s' : State) (code : Config.TCode), exec .readTime s = .next s' →
    s'.result = some (.sessionErr (.transport code)) → s'.chip = s.chipNow ∧ s'.freeCount = s.freeCount) ∧
  (∀ (t : CanonicalTime) (s s' : State) (code : Config.TCode), exec (.setTime t) s = .next s' →
    s'.result = some (.sessionErr (.transport code)) → ∀ a, a < 7 → s'.chip.read? a = none) ∧
  (∀ (s s' : State) (code : Config.TCode), exec .initSession s = .next s' →
    s'.result = some (.sessionErr (.transport code)) → s'.chip.read? hoursOffset.toNat = none)

/-- Which outcome is reported when several apply: Refused first (decision D13); in SET_TIME the codec before the
bus; in READ_TIME the bus before the codec, and MalformedBcd before FieldOutOfRange (decision D10), as in
DECODE. -/
def Obligations.OutcomePriority : Prop :=
  (∀ (s s' : State) (t : CanonicalTime), s.session = .uninitialized → exec (.setTime t) s = .next s' →
    s'.result = some .refused) ∧
  (∀ (s s' : State) (t : CanonicalTime), s.session = .ready → ¬ Claims.InRange t →
    exec (.setTime t) s = .next s' → s'.result = some (.sessionErr (.codec .fieldOutOfRange))) ∧
  (∀ (s s' : State) (code : Config.TCode), s.session = .ready → s.bus.reply = .err code →
    exec .readTime s = .next s' → s'.result = some (.sessionErr (.transport code))) ∧
  (∀ s s' : State, s.session = .ready → s.bus.reply = .ok → Claims.Malformed (imageHeld s) →
    exec .readTime s = .next s' → s'.result = some (.sessionErr (.codec .malformedBcd))) ∧
  (∀ (img : RegisterImage) (s s' : State), Claims.Malformed img → exec (.decode img) s = .next s' →
    s'.result = some (.codecErr .malformedBcd))

/-- R58 and R161: a failed call is reported as `Transport(code)` with the collaborator's code unchanged, after that
one call and no other, whatever the code; and `Transport(code)` is reported only by a session operation whose call
failed with that code. -/
def Obligations.TransportCodePassedThrough : Prop :=
  (∀ (s s' : State) (code : Config.TCode), s.session = .ready → s.bus.reply = .err code →
    exec .readTime s = .next s' →
    s'.result = some (.sessionErr (.transport code)) ∧ s'.trace = s.trace ++ [.bulkRead 0 7]) ∧
  (∀ (s s' : State) (t : CanonicalTime) (code : Config.TCode), s.session = .ready → Claims.InRange t →
    s.bus.reply = .err code → exec (.setTime t) s = .next s' →
    s'.result = some (.sessionErr (.transport code)) ∧
      s'.trace = s.trace ++ [.bulkWrite 0 (imageBytes (Claims.packed t))]) ∧
  (∀ (s s' : State) (code : Config.TCode), s.bus.reply = .err code → exec .initSession s = .next s' →
    s'.result = some (.sessionErr (.transport code)) ∧ s'.trace = s.trace ++ [.writeSingle 2 modeByte]) ∧
  (∀ (i : Instr) (s s' : State) (code : Config.TCode), exec i s = .next s' →
    s'.result = some (.sessionErr (.transport code)) → s.bus.reply = .err code ∧ ¬ Claims.IsCodec i) ∧
  (∀ (i : Instr) (s s' : State) (code code' : Config.TCode), s.bus.reply = .err code → exec i s = .next s' →
    ∃ t', exec i { s with bus := ⟨s.bus.drift, .err code'⟩ } = .next t' ∧
      s'.session = t'.session ∧ s'.chip = t'.chip ∧ s'.trace = t'.trace)

/-- A bus call that never returns leaves the operation unfinished: the machine makes no further step (a hang, not
an error result: decision D21, log 7). -/
def Obligations.SilentBusHangs : Prop :=
  (∀ s : State, s.session = .ready → s.bus.reply = .noAnswer →
    exec .readTime s = .fault .busNeverAnswers) ∧
  (∀ (s : State) (t : CanonicalTime), s.session = .ready → Claims.InRange t → s.bus.reply = .noAnswer →
    exec (.setTime t) s = .fault .busNeverAnswers) ∧
  (∀ s : State, s.bus.reply = .noAnswer → exec .initSession s = .fault .busNeverAnswers)

/-- A read whose success carries a number of bytes other than seven has no result: the collaborator broke its
contract and the model refuses the step by name (decision D15, treatment U13, log 8). -/
def Obligations.WrongLengthReadRefused : Prop :=
  ∀ s : State, s.session = .ready → s.bus.reply = .okWrongLength →
    exec .readTime s = .refused .wrongLengthRead

/-- A step stops only on a bus call that never returns, or on a read whose success has the wrong length (outside the
collaborator's contract, decision D15, log 8); every other step goes on. -/
def Obligations.StepStopsOnlyOnTheBus : Prop :=
  ∀ s : State, s.Runs ∨
    ∃ c t rest i, s.inbox = .command c t :: rest ∧ decode c = .ok i ∧ ¬ Claims.IsCodec i ∧
      ((t.reply = .noAnswer ∧ step s = .fault .busNeverAnswers) ∨
       (t.reply = .okWrongLength ∧ i = .readTime ∧ s.session = .ready ∧ step s = .refused .wrongLengthRead))

/-! ## Ports, steps, reset -/

/-- The result ports, all of them: every port of R73 but `state_out` shows exactly what the operation's result has and
the others have no value (decision D17, log 15), with the status codes of decision D5 and the sentinels of decision
D8. For each operation that succeeds, its own value port and no other; for SET_TIME and INITIALIZE no value port; for
an error the status alone, with the code if it is Transport; before the first operation nothing. A number in [0,99]
and a decoded time stand on their ports without loss. `state_out` shows the session state (decision D18). -/
def Obligations.ResultPortsShowTheResult : Prop :=
  (∀ (b : Byte) (s s' : State) (n : Int), bcdToBin b = .ok n → exec (.bcd2bin b) s = .next s' →
    Claims.ports s' = { status := some 0, nOut := some (fieldWord n) } ∧ (fieldWord n).toInt = n) ∧
  (∀ (n : Int) (s s' : State) (b : Byte), binToBcd n = .ok b → exec (.bin2bcd n) s = .next s' →
    Claims.ports s' = { status := some 0, byteOut := some b }) ∧
  (∀ (img : RegisterImage) (s s' : State) (t : CanonicalTime), decodeImage img = .ok t →
    exec (.decode img) s = .next s' →
    Claims.ports s' = Claims.timePorts t ∧ CanonicalTime.ofPort t.toPort = t) ∧
  (∀ (t : CanonicalTime) (s s' : State) (img : RegisterImage), encodeTime t = .ok img →
    exec (.encode t) s = .next s' → Claims.ports s' = { status := some 0, imageOut := some img.toPort }) ∧
  (∀ (s s' : State) (t : CanonicalTime), s.session = .ready → s.bus.reply = .ok →
    decodeImage (imageHeld s) = .ok t → exec .readTime s = .next s' → Claims.ports s' = Claims.timePorts t) ∧
  (∀ (t : CanonicalTime) (s s' : State), s.session = .ready → Claims.InRange t → s.bus.reply.Stores →
    exec (.setTime t) s = .next s' → Claims.ports s' = { status := some 0 }) ∧
  (∀ s s' : State, s.bus.reply.Stores → exec .initSession s = .next s' →
    Claims.ports s' = { status := some 0 }) ∧
  (∀ (i : Instr) (s s' : State) (code : Config.TCode), exec i s = .next s' →
    s'.result = some (.sessionErr (.transport code)) →
    Claims.ports s' = { status := some 1, tcodeOut := some code }) ∧
  (∀ (i : Instr) (s s' : State) (st : BitVec 3), exec i s = .next s' → s'.statusOut = some st → st ≠ 0 → st ≠ 1 →
    Claims.ports s' = { status := some st }) ∧
  (∀ s : State, s.result = none → Claims.ports s = {}) ∧
  (∀ s : State, (s.stateOut = 0 ↔ s.session = .uninitialized) ∧ (s.stateOut = 1 ↔ s.session = .ready))

/-- When the host's next event is a command whose ports decode to an operation, the step is that operation, run
with the bus port as the event gives it and the command taken off the host's list; the operation is one the ports
can carry. A table word placed by `withFetchWord` runs so in the very next step. -/
def Obligations.StepRunsDecodedOperation : Prop :=
  (∀ (s : State) (c : Command) (t : BusTurn) (rest : List Event) (i : Instr), s.inbox = .command c t :: rest →
    decode c = .ok i → step s = exec i { s with bus := t, inbox := rest }) ∧
  (∀ (s : State) (nbits w : Nat) (i : Instr), decodeTableWord nbits w = some i →
    step (s.withFetchWord nbits w) = exec i s)

/-- `op = 7` is answered with status Refused, no bus call and no state change (the spec's own decision D4). -/
def Obligations.ReservedOpRefused : Prop :=
  ∀ (s : State) (c : Command) (t : BusTurn) (rest : List Event), s.inbox = .command c t :: rest → c.op = 7 →
    step s = .next { s with bus := t, inbox := rest, result := some .refused }

/-- Reset sets the session state to `Uninitialized` and leaves no result pending; the chip's registers and the bus
are not touched (the event is decision D18; what else State.reset holds is the model's, logs 1, 3, 4, 5, 13).
With no event the block waits. -/
def Obligations.ResetTouchesOnlyTheBlock : Prop :=
  State.reset.session = .uninitialized ∧ State.reset.result = none ∧ State.reset.statusOut = none ∧
    State.reset.stateOut = 0 ∧
  (∀ (s : State) (rest : List Event), s.inbox = .reset :: rest →
    step s = .next { s with session := .uninitialized, result := none, inbox := rest }) ∧
  (∀ s : State, s.inbox = [] → step s = .next s)

/-- The words of the operation map: `op` 0 to 6 are the seven operations, 7 is none (codes of decision D3). -/
def Obligations.OperationMapWords : Prop :=
  decodeTableWord 8 0 = some (.bcd2bin 0) ∧ decodeTableWord 8 1 = some (.bin2bcd 0) ∧
    decodeTableWord 8 2 = some (.decode ⟨0, 0, 0, 0, 0, 0, 0⟩) ∧
    decodeTableWord 8 3 = some (.encode ⟨0, 0, 0, 0, 0, 0, 0⟩) ∧ decodeTableWord 8 4 = some .readTime ∧
    decodeTableWord 8 5 = some (.setTime ⟨0, 0, 0, 0, 0, 0, 0⟩) ∧ decodeTableWord 8 6 = some .initSession ∧
    decodeTableWord 8 7 = none ∧
  decode ⟨2, 0, 0, 0x24062103141530#56, TimePort.zero⟩ =
    .ok (.decode ⟨0x30#8, 0x15#8, 0x14#8, 0x03#8, 0x21#8, 0x06#8, 0x24#8⟩) ∧
  decode ⟨1, 0, 0xFFFFFFFF#32, 0, TimePort.zero⟩ = .ok (.bin2bcd (-1))

/-- Decoding the ports of a well-formed operation gives that operation, every operand at every value a port
admits. -/
def Obligations.DecodeOfEncodedOperation : Prop :=
  ∀ i : Instr, i.wellFormed = true → decode (encode i) = .ok i

/-- What the ports decode to is always well formed, and encoding it gives the ports back with the ports the
operation ignores driven to zero. -/
def Obligations.DecodedPortsAreCanonical : Prop :=
  ∀ (c : Command) (i : Instr), decode c = .ok i →
    i.wellFormed = true ∧ (encode i).op = c.op ∧
      (c.op = 0 → encode i = { Command.ofOp 0 with byteIn := c.byteIn }) ∧
      (c.op = 1 → encode i = { Command.ofOp 1 with nIn := c.nIn }) ∧
      (c.op = 2 → encode i = { Command.ofOp 2 with imageIn := c.imageIn }) ∧
      (c.op = 3 → encode i = { Command.ofOp 3 with timeIn := c.timeIn }) ∧
      (c.op = 4 → encode i = Command.ofOp 4) ∧
      (c.op = 5 → encode i = { Command.ofOp 5 with timeIn := c.timeIn }) ∧
      (c.op = 6 → encode i = Command.ofOp 6)

/-- Byte `i` of an image stands at bits `[8*i+7 : 8*i]` of its 56-bit form (decision D19). -/
def Obligations.ImagePortBitLayout : Prop :=
  (∀ (img : RegisterImage) (i j : Nat) (b : Byte), (imageBytes img)[i]? = some b → j < 8 →
    img.toPort.getLsbD (8 * i + j) = b.getLsbD j) ∧
  (∀ img : RegisterImage, RegisterImage.ofPort img.toPort = img) ∧
  (∀ w : ImageWord, (RegisterImage.ofPort w).toPort = w)

/-! ## The invariant -/

/-- The invariant holds after reset. -/
def Obligations.InvariantAtReset : Prop := State.reset.Inv

/-- Every step keeps the invariant: the register space canonical, only the three shapes of call on the bus and only
clean images in them, only legal results, and `Ready` only after the bring-up write. -/
def Obligations.StepKeepsInvariant : Prop :=
  ∀ s s' : State, s.Inv → step s = .next s' → s'.Inv

/-! ## Transport codes -/

/-- The type of a transport code is open (decision D14, log 10): put the code of the bus answer through any function
whatever, and the operation does the same, with the code of its result put through the same function. So no operation
stores, compares or interprets a code. -/
def Obligations.TransportCodesAreOpaque : Prop :=
  ∀ (f : Config.TCode → Config.TCode) (i : Instr) (s s' : State), exec i s = .next s' →
    exec i { s with bus := ⟨s.bus.drift, Claims.recodedReply f s.bus.reply⟩ } = .next { s' with
      bus := ⟨s.bus.drift, Claims.recodedReply f s.bus.reply⟩,
      result := s'.result.map (Claims.recodedResult f) }
end

