-- ==== Sys2Proof/Laws/Memory.lean ====
section
/-! SUPPORT. Laws of the chip's register space: a read after each operation, and that every operation keeps the canonical form. -/

namespace Sys2Proof.Machine.Memory

@[simp] theorem read?_nil (a : Nat) : Memory.read? [] a = none := rfl

theorem read?_write (m : Memory) (a c : Nat) (b : Byte) :
    (m.write a b).read? c = if c = a then some b else m.read? c := by
  induction m with
  | nil => simp [write, read?]
  | cons x rest ih =>
    obtain ⟨k, v⟩ := x
    by_cases hlt : a < k
    · simp [write, read?, hlt]
    · by_cases heq : a = k
      · subst heq; by_cases hc : c = a <;> simp [write, read?, hc]
      · by_cases hc : c = k
        · subst hc; simp [write, read?, hlt, heq, Ne.symm heq]
        · simp [write, read?, hlt, heq, hc, ih]

@[simp] theorem read?_write_same (m : Memory) (a : Nat) (b : Byte) : (m.write a b).read? a = some b := by
  simp [read?_write]

theorem read?_write_other (m : Memory) {a c : Nat} (b : Byte) (h : c ≠ a) :
    (m.write a b).read? c = m.read? c := by
  simp [read?_write, h]

theorem read?_forget (m : Memory) (a c : Nat) :
    (m.forget a).read? c = if c = a then none else m.read? c := by
  induction m with
  | nil => simp [forget]
  | cons x rest ih =>
    obtain ⟨k, v⟩ := x
    by_cases heq : a = k
    · subst heq
      by_cases hc : c = a
      · subst hc; simpa [forget] using ih
      · simp [forget, read?, hc, ih]
    · by_cases hc : c = k
      · subst hc; simp [forget, read?, heq, Ne.symm heq]
      · simp [forget, read?, heq, hc, ih]

/-- Outside the bytes stored, a bulk store changes nothing. -/
theorem read?_writeBytes_outside (bs : List Byte) (m : Memory) (a c : Nat)
    (h : c < a ∨ a + bs.length ≤ c) : (m.writeBytes a bs).read? c = m.read? c := by
  induction bs generalizing m a with
  | nil => rfl
  | cons b bs ih =>
    simp only [List.length_cons] at h
    rw [writeBytes, ih _ _ (by omega), read?_write_other _ _ (by omega)]

/-- Byte `i` of a bulk store is read back at `a + i` (R42). -/
theorem read?_writeBytes_inside (bs : List Byte) (m : Memory) (a i : Nat) (h : i < bs.length) :
    (m.writeBytes a bs).read? (a + i) = bs[i]? := by
  induction bs generalizing m a i with
  | nil => simp at h
  | cons b bs ih =>
    cases i with
    | zero =>
      rw [writeBytes, read?_writeBytes_outside _ _ _ _ (by omega)]
      simp
    | succ i =>
      have : a + (i + 1) = (a + 1) + i := by omega
      rw [writeBytes, this, ih _ _ _ (by simpa using h)]
      simp

/-- Outside the range, forgetting changes nothing. -/
theorem read?_forgetRange_outside (n : Nat) (m : Memory) (a c : Nat) (h : c < a ∨ a + n ≤ c) :
    (m.forgetRange a n).read? c = m.read? c := by
  induction n generalizing m a with
  | zero => rfl
  | succ n ih => rw [forgetRange, ih _ _ (by omega), read?_forget, if_neg (by omega)]

/-- Inside the range, nothing is determined any more (U6). -/
theorem read?_forgetRange_inside (n : Nat) (m : Memory) (a c : Nat) (h : a ≤ c ∧ c < a + n) :
    (m.forgetRange a n).read? c = none := by
  induction n generalizing m a with
  | zero => omega
  | succ n ih =>
    rw [forgetRange]
    by_cases hc : c = a
    · subst hc
      rw [read?_forgetRange_outside _ _ _ _ (by omega), read?_forget, if_pos rfl]
    · exact ih _ _ (by omega)

theorem wf_nil : wf [] := by simp [wf]

theorem mem_write {m : Memory} {a : Nat} {b : Byte} {c : Host.Cell} (h : c ∈ m.write a b) :
    c = (a, b) ∨ c ∈ m := by
  induction m with
  | nil => simpa [write] using h
  | cons x rest ih =>
    obtain ⟨k, v⟩ := x
    simp only [write] at h
    split at h
    · simpa using h
    · split at h
      · simp only [List.mem_cons] at h ⊢; tauto
      · simp only [List.mem_cons] at h ⊢
        rcases h with h | h
        · exact .inr (.inl h)
        · exact (ih h).imp id .inr

/-- A write inside the space keeps the canonical form. -/
theorem wf_write {m : Memory} (hm : m.wf) {a : Nat} (ha : a < Config.spaceSize) (b : Byte) :
    (m.write a b).wf := by
  refine ⟨?_, fun c hc => ?_⟩
  · have hp := hm.1
    clear hm
    induction m with
    | nil => simp [write]
    | cons x rest ih =>
      obtain ⟨k, v⟩ := x
      obtain ⟨hk, hrest⟩ := List.pairwise_cons.1 hp
      simp only [write]
      split
      · next h =>
        refine List.pairwise_cons.2 ⟨fun y hy => ?_, hp⟩
        rcases List.mem_cons.1 hy with rfl | hy
        · exact h
        · exact Nat.lt_trans h (hk y hy)
      · split
        · next h => subst h; exact List.pairwise_cons.2 ⟨hk, hrest⟩
        · next h1 h2 =>
          refine List.pairwise_cons.2 ⟨fun y hy => ?_, ih hrest⟩
          rcases mem_write hy with rfl | hy
          · show k < a
            omega
          · exact hk y hy
  · rcases mem_write hc with rfl | hc
    · exact ha
    · exact hm.2 c hc

theorem forget_sublist (m : Memory) (a : Nat) : List.Sublist (m.forget a) m := by
  induction m with
  | nil => exact List.Sublist.refl _
  | cons x rest ih =>
    obtain ⟨k, v⟩ := x
    simp only [forget]
    split
    · exact ih.cons _
    · exact ih.cons_cons _

/-- Forgetting keeps the canonical form. -/
theorem wf_forget {m : Memory} (hm : m.wf) (a : Nat) : (m.forget a).wf :=
  ⟨hm.1.sublist (forget_sublist m a), fun c hc => hm.2 c ((forget_sublist m a).subset hc)⟩

theorem wf_writeBytes (bs : List Byte) {m : Memory} (hm : m.wf) {a : Nat}
    (ha : a + bs.length ≤ Config.spaceSize) : (m.writeBytes a bs).wf := by
  induction bs generalizing m a with
  | nil => exact hm
  | cons b bs ih =>
    simp only [List.length_cons] at ha
    exact ih (wf_write hm (by omega) b) (by omega)

theorem wf_forgetRange (n : Nat) {m : Memory} (hm : m.wf) (a : Nat) : (m.forgetRange a n).wf := by
  induction n generalizing m a with
  | zero => exact hm
  | succ n ih => exact ih (wf_forget hm a) (a + 1)

/-- The chip's own changes keep the canonical form: an offset is always inside the space. -/
theorem wf_drifted (ds : List (Offset × Byte)) {m : Memory} (hm : m.wf) : (m.drifted ds).wf := by
  induction ds generalizing m with
  | nil => exact hm
  | cons d ds ih =>
    obtain ⟨o, b⟩ := d
    exact ih (wf_write hm (by have := o.isLt; simpa [Config.spaceSize] using this) b)

end Sys2Proof.Machine.Memory

/-- The chip at the moment of a call is in canonical form if the recorded one is. -/
theorem Sys2Proof.Machine.State.chipNow_wf {s : Sys2Proof.Machine.State} (h : s.chip.wf) : s.chipNow.wf :=
  Sys2Proof.Machine.Memory.wf_drifted _ h
end

