-- ==== Sys2Proof/Laws/State.lean ====
section
/-! SUPPORT. What each update of State does to each field. -/

namespace Sys2Proof.Machine

@[simp] theorem State.finish_session (s : State) (r : OpResult) : (s.finish r).session = s.session := rfl
@[simp] theorem State.finish_chip (s : State) (r : OpResult) : (s.finish r).chip = s.chip := rfl
@[simp] theorem State.finish_result (s : State) (r : OpResult) : (s.finish r).result = some r := rfl
@[simp] theorem State.finish_trace (s : State) (r : OpResult) : (s.finish r).trace = s.trace := rfl
@[simp] theorem State.finish_bus (s : State) (r : OpResult) : (s.finish r).bus = s.bus := rfl
@[simp] theorem State.finish_inbox (s : State) (r : OpResult) : (s.finish r).inbox = s.inbox := rfl
@[simp] theorem State.finish_freeCount (s : State) (r : OpResult) : (s.finish r).freeCount = s.freeCount := rfl

@[simp] theorem State.becomeReady_session (s : State) : s.becomeReady.session = .ready := rfl
@[simp] theorem State.becomeReady_chip (s : State) : s.becomeReady.chip = s.chip := rfl
@[simp] theorem State.becomeReady_result (s : State) : s.becomeReady.result = s.result := rfl
@[simp] theorem State.becomeReady_trace (s : State) : s.becomeReady.trace = s.trace := rfl
@[simp] theorem State.becomeReady_bus (s : State) : s.becomeReady.bus = s.bus := rfl
@[simp] theorem State.becomeReady_inbox (s : State) : s.becomeReady.inbox = s.inbox := rfl
@[simp] theorem State.becomeReady_freeCount (s : State) : s.becomeReady.freeCount = s.freeCount := rfl

@[simp] theorem State.afterCall_session (s : State) (c : BusCall) (m : Memory) : (s.afterCall c m).session = s.session := rfl
@[simp] theorem State.afterCall_chip (s : State) (c : BusCall) (m : Memory) : (s.afterCall c m).chip = m := rfl
@[simp] theorem State.afterCall_result (s : State) (c : BusCall) (m : Memory) : (s.afterCall c m).result = s.result := rfl
@[simp] theorem State.afterCall_trace (s : State) (c : BusCall) (m : Memory) : (s.afterCall c m).trace = s.trace ++ [c] := rfl
@[simp] theorem State.afterCall_bus (s : State) (c : BusCall) (m : Memory) : (s.afterCall c m).bus = s.bus := rfl
@[simp] theorem State.afterCall_inbox (s : State) (c : BusCall) (m : Memory) : (s.afterCall c m).inbox = s.inbox := rfl
@[simp] theorem State.afterCall_freeCount (s : State) (c : BusCall) (m : Memory) : (s.afterCall c m).freeCount = s.freeCount := rfl

@[simp] theorem State.freshFree_session (s : State) : s.freshFree.session = s.session := rfl
@[simp] theorem State.freshFree_chip (s : State) : s.freshFree.chip = s.chip := rfl
@[simp] theorem State.freshFree_result (s : State) : s.freshFree.result = s.result := rfl
@[simp] theorem State.freshFree_trace (s : State) : s.freshFree.trace = s.trace := rfl
@[simp] theorem State.freshFree_bus (s : State) : s.freshFree.bus = s.bus := rfl
@[simp] theorem State.freshFree_inbox (s : State) : s.freshFree.inbox = s.inbox := rfl
@[simp] theorem State.freshFree_freeCount (s : State) : s.freshFree.freeCount = s.freeCount + 1 := rfl

@[simp] theorem State.resetBlock_session (s : State) : s.resetBlock.session = .uninitialized := rfl
@[simp] theorem State.resetBlock_chip (s : State) : s.resetBlock.chip = s.chip := rfl
@[simp] theorem State.resetBlock_result (s : State) : s.resetBlock.result = none := rfl
@[simp] theorem State.resetBlock_trace (s : State) : s.resetBlock.trace = s.trace := rfl
@[simp] theorem State.resetBlock_bus (s : State) : s.resetBlock.bus = s.bus := rfl
@[simp] theorem State.resetBlock_inbox (s : State) : s.resetBlock.inbox = s.inbox := rfl
@[simp] theorem State.resetBlock_freeCount (s : State) : s.resetBlock.freeCount = s.freeCount := rfl

@[simp] theorem State.receive_session (s : State) (t : BusTurn) (rest : List Event) : (s.receive t rest).session = s.session := rfl
@[simp] theorem State.receive_chip (s : State) (t : BusTurn) (rest : List Event) : (s.receive t rest).chip = s.chip := rfl
@[simp] theorem State.receive_result (s : State) (t : BusTurn) (rest : List Event) : (s.receive t rest).result = s.result := rfl
@[simp] theorem State.receive_trace (s : State) (t : BusTurn) (rest : List Event) : (s.receive t rest).trace = s.trace := rfl
@[simp] theorem State.receive_bus (s : State) (t : BusTurn) (rest : List Event) : (s.receive t rest).bus = t := rfl
@[simp] theorem State.receive_inbox (s : State) (t : BusTurn) (rest : List Event) : (s.receive t rest).inbox = rest := rfl
@[simp] theorem State.receive_freeCount (s : State) (t : BusTurn) (rest : List Event) : (s.receive t rest).freeCount = s.freeCount := rfl

@[simp] theorem State.presented_session (s : State) (c : Command) : (s.presented c).session = s.session := rfl
@[simp] theorem State.presented_chip (s : State) (c : Command) : (s.presented c).chip = s.chip := rfl
@[simp] theorem State.presented_result (s : State) (c : Command) : (s.presented c).result = s.result := rfl
@[simp] theorem State.presented_trace (s : State) (c : Command) : (s.presented c).trace = s.trace := rfl
@[simp] theorem State.presented_bus (s : State) (c : Command) : (s.presented c).bus = s.bus := rfl
@[simp] theorem State.presented_inbox (s : State) (c : Command) : (s.presented c).inbox = .command c s.bus :: s.inbox := rfl
@[simp] theorem State.presented_freeCount (s : State) (c : Command) : (s.presented c).freeCount = s.freeCount := rfl

/-- A command placed with the bus port as it stands is received into the very same state. -/
@[simp] theorem State.receive_self (s : State) : s.receive s.bus s.inbox = s := rfl

/-- Placing a command and receiving it again leaves the state as it was. -/
@[simp] theorem State.presented_receive (s : State) (c : Command) :
    (s.presented c).receive s.bus s.inbox = s := rfl

end Sys2Proof.Machine
end

