-- ==== Sys2Proof/Laws/Bus.lean ====
section
/-! SUPPORT. What each bus primitive does, once: by the answer, and all it can do when it goes on. -/

namespace Sys2Proof.Machine

theorem memRead_ok {s : State} {o : Offset} {n : Nat} (hn : o.toNat + n ≤ Config.spaceSize)
    (h : s.bus.reply = .ok) :
    memRead s o n = .ok (s.chipBytes o.toNat n) (s.afterCall (.bulkRead o n) s.chipNow).freshFree := by
  simp [memRead, h, Nat.not_lt.2 hn]

theorem memRead_okWrongLength {s : State} {o : Offset} {n : Nat} (hn : o.toNat + n ≤ Config.spaceSize)
    (h : s.bus.reply = .okWrongLength) :
    memRead s o n = .ok [] (s.afterCall (.bulkRead o n) s.chipNow) := by
  simp [memRead, h, Nat.not_lt.2 hn]

theorem memRead_err {s : State} {o : Offset} {n : Nat} {code : Config.TCode}
    (hn : o.toNat + n ≤ Config.spaceSize) (h : s.bus.reply = .err code) :
    memRead s o n = .err code (s.afterCall (.bulkRead o n) s.chipNow) := by
  simp [memRead, h, Nat.not_lt.2 hn]

theorem memRead_noAnswer {s : State} {o : Offset} {n : Nat} (hn : o.toNat + n ≤ Config.spaceSize)
    (h : s.bus.reply = .noAnswer) : memRead s o n = .never := by
  simp [memRead, h, Nat.not_lt.2 hn]

theorem memStore_ok {s : State} {c : BusCall} {o : Offset} {bs : List Byte}
    (hn : o.toNat + bs.length ≤ Config.spaceSize) (h : s.bus.reply.Stores) :
    memStore s c o bs = .ok () (s.afterCall c (s.chipNow.writeBytes o.toNat bs)) := by
  rcases h with h | h <;> simp [memStore, h, Nat.not_lt.2 hn]

theorem memStore_err {s : State} {c : BusCall} {o : Offset} {bs : List Byte} {code : Config.TCode}
    (hn : o.toNat + bs.length ≤ Config.spaceSize) (h : s.bus.reply = .err code) :
    memStore s c o bs = .err code (s.afterCall c (s.chipNow.forgetRange o.toNat bs.length)) := by
  simp [memStore, h, Nat.not_lt.2 hn]

theorem memStore_noAnswer {s : State} {c : BusCall} {o : Offset} {bs : List Byte}
    (hn : o.toNat + bs.length ≤ Config.spaceSize) (h : s.bus.reply = .noAnswer) :
    memStore s c o bs = .never := by
  simp [memStore, h, Nat.not_lt.2 hn]

/-- The image's place lies inside the register space (R50). -/
theorem image_in_space : imageOffset.toNat + imageCount ≤ Config.spaceSize := by decide

theorem imageBytes_in_space (img : RegisterImage) :
    imageOffset.toNat + (imageBytes img).length ≤ Config.spaceSize := by
  simp [imageBytes, imageOffset, Config.imageBase, Config.spaceSize]

theorem hours_in_space (b : Byte) : hoursOffset.toNat + [b].length ≤ Config.spaceSize := by
  simp [hoursOffset, Config.hrOffset, Config.spaceSize]

@[simp] theorem imageOfBytes_chipBytes (s : State) :
    imageOfBytes (s.chipBytes imageOffset.toNat imageCount) = some (imageHeld s) := rfl

/-- An image is what its bytes are read back as (R42, R60). -/
@[simp] theorem imageOfBytes_imageBytes (img : RegisterImage) : imageOfBytes (imageBytes img) = some img := rfl

/-- ALL READ_TIME CAN DO when it goes on. -/
theorem execReadTime_next {s s' : State} (h : execReadTime s = .next s') :
    (s.session = .uninitialized ∧ s' = s.finish .refused) ∨
    (s.session = .ready ∧ s.bus.reply = .ok ∧
      s' = ((s.afterCall (.bulkRead imageOffset imageCount) s.chipNow).freshFree).finish
        (sessionResult timeValue (decodeImage (imageHeld s)))) ∨
    (∃ code, s.session = .ready ∧ s.bus.reply = .err code ∧
      s' = (s.afterCall (.bulkRead imageOffset imageCount) s.chipNow).finish
        (.sessionErr (.transport code))) := by
  cases hs : s.session with
  | uninitialized => simp [execReadTime, whenReady, hs] at h; exact .inl ⟨rfl, h.symm⟩
  | ready =>
    cases hr : s.bus.reply with
    | ok =>
      simp [execReadTime, whenReady, hs, memRead_ok image_in_space hr] at h
      exact .inr (.inl ⟨rfl, rfl, h.symm⟩)
    | okWrongLength =>
      simp [execReadTime, whenReady, hs, memRead_okWrongLength image_in_space hr, imageOfBytes] at h
    | err code =>
      simp [execReadTime, whenReady, hs, memRead_err image_in_space hr] at h
      exact .inr (.inr ⟨code, rfl, rfl, h.symm⟩)
    | noAnswer => simp [execReadTime, whenReady, hs, memRead_noAnswer image_in_space hr] at h

/-- ALL SET_TIME CAN DO when it goes on. -/
theorem execSetTime_next {t : CanonicalTime} {s s' : State} (h : execSetTime t s = .next s') :
    (s.session = .uninitialized ∧ s' = s.finish .refused) ∨
    (∃ e, s.session = .ready ∧ encodeTime t = .error e ∧ s' = s.finish (.sessionErr (.codec e))) ∨
    (∃ img, s.session = .ready ∧ encodeTime t = .ok img ∧ s.bus.reply.Stores ∧
      s' = (s.afterCall (.bulkWrite imageOffset (imageBytes img))
        (s.chipNow.writeBytes imageOffset.toNat (imageBytes img))).finish (.ok .unit)) ∨
    (∃ img code, s.session = .ready ∧ encodeTime t = .ok img ∧ s.bus.reply = .err code ∧
      s' = (s.afterCall (.bulkWrite imageOffset (imageBytes img))
        (s.chipNow.forgetRange imageOffset.toNat (imageBytes img).length)).finish
          (.sessionErr (.transport code))) := by
  cases hs : s.session with
  | uninitialized => simp [execSetTime, whenReady, hs] at h; exact .inl ⟨rfl, h.symm⟩
  | ready =>
    cases he : encodeTime t with
    | error e => simp [execSetTime, whenReady, hs, he] at h; exact .inr (.inl ⟨e, rfl, rfl, h.symm⟩)
    | ok img =>
      have hn := imageBytes_in_space img
      cases hr : s.bus.reply with
      | err code =>
        simp [execSetTime, whenReady, hs, he, memWrite, memStore_err hn hr] at h
        exact .inr (.inr (.inr ⟨img, code, rfl, rfl, rfl, h.symm⟩))
      | noAnswer => simp [execSetTime, whenReady, hs, he, memWrite, memStore_noAnswer hn hr] at h
      | ok =>
        simp [execSetTime, whenReady, hs, he, memWrite, memStore_ok hn (.inl hr)] at h
        exact .inr (.inr (.inl ⟨img, rfl, rfl, .inl rfl, h.symm⟩))
      | okWrongLength =>
        simp [execSetTime, whenReady, hs, he, memWrite, memStore_ok hn (.inr hr)] at h
        exact .inr (.inr (.inl ⟨img, rfl, rfl, .inr rfl, h.symm⟩))

/-- ALL a bring-up CAN DO when it goes on, whatever its mode byte. -/
theorem bringUp_next {b : Byte} {s s' : State} (h : bringUp b s = .next s') :
    (s.bus.reply.Stores ∧
      s' = (s.afterCall (.writeSingle hoursOffset b)
        (s.chipNow.writeBytes hoursOffset.toNat [b])).becomeReady.finish (.ok .unit)) ∨
    (∃ code, s.bus.reply = .err code ∧
      s' = (s.afterCall (.writeSingle hoursOffset b)
        (s.chipNow.forgetRange hoursOffset.toNat 1)).finish (.sessionErr (.transport code))) := by
  have hn := hours_in_space b
  cases hr : s.bus.reply with
  | err code =>
    simp [bringUp, memWrite1, memStore_err hn hr] at h
    exact .inr ⟨code, rfl, h.symm⟩
  | noAnswer => simp [bringUp, memWrite1, memStore_noAnswer hn hr] at h
  | ok =>
    simp [bringUp, memWrite1, memStore_ok hn (.inl hr)] at h
    exact .inl ⟨.inl rfl, h.symm⟩
  | okWrongLength =>
    simp [bringUp, memWrite1, memStore_ok hn (.inr hr)] at h
    exact .inl ⟨.inr rfl, h.symm⟩

end Sys2Proof.Machine
end

