-- ==== Sys2Proof/Laws/Codec.lean ====
section
/-! SUPPORT. The codec's functions, one specification lemma each. -/

namespace Sys2Proof.Machine

theorem hiNibble_eq (b : Byte) : hiNibble b = b.toNat / 16 := by
  simp [hiNibble, Nat.shiftRight_eq_div_pow]

theorem loNibble_eq (b : Byte) : loNibble b = b.toNat % 16 := by
  simp only [loNibble, BitVec.toNat_and]
  exact Nat.and_two_pow_sub_one_eq_mod b.toNat 4

/-- All `bcd_to_bin` can answer (R91). -/
theorem bcdToBin_ok_iff {b : Byte} {n : Int} :
    bcdToBin b = .ok n ↔ (hiNibble b ≤ 9 ∧ loNibble b ≤ 9) ∧ n = 10 * (hiNibble b : Int) + loNibble b := by
  unfold bcdToBin
  split
  · simp only [reduceCtorEq, false_iff]; omega
  · simp only [Except.ok.injEq]; omega

theorem bcdToBin_error_iff {b : Byte} {e : CodecError} :
    bcdToBin b = .error e ↔ (9 < hiNibble b ∨ 9 < loNibble b) ∧ e = .malformedBcd := by
  unfold bcdToBin
  split
  · next h => simp [h, eq_comm]
  · next h => simp [h]

/-- All `bin_to_bcd` can answer (R92): the byte's two nibbles are the two digits. -/
theorem binToBcd_ok_iff {n : Int} {b : Byte} :
    binToBcd n = .ok b ↔ (0 ≤ n ∧ n ≤ 99) ∧ b.toNat = 16 * (n.toNat / 10) + n.toNat % 10 := by
  have key : ∀ m : Fin 100, (BitVec.ofNat 8 (m.val / 10) <<< 4 ||| BitVec.ofNat 8 (m.val % 10)).toNat =
      16 * (m.val / 10) + m.val % 10 := by decide
  unfold binToBcd
  split
  · simp only [reduceCtorEq, false_iff]; omega
  · have hk := key ⟨n.toNat, by omega⟩
    simp only [Except.ok.injEq, ← BitVec.toNat_inj] at hk ⊢
    omega

theorem binToBcd_error_iff {n : Int} {e : CodecError} :
    binToBcd n = .error e ↔ (n < 0 ∨ 99 < n) ∧ e = .fieldOutOfRange := by
  unfold binToBcd
  split
  · next h => simp [h, eq_comm]
  · next h => simp [h]

@[simp] theorem addOffset_ok_iff {k n : Int} {r : Except CodecError Int} :
    addOffset k r = .ok n ↔ r = .ok (n - k) := by
  cases r with
  | error e => simp [addOffset]
  | ok m => simp only [addOffset, Except.ok.injEq]; omega

@[simp] theorem addOffset_error_iff {k : Int} {e : CodecError} {r : Except CodecError Int} :
    addOffset k r = .error e ↔ r = .error e := by
  cases r <;> simp [addOffset]

/-- Phase 1 succeeds exactly when every field converts (R120). -/
theorem unpackImage_ok_iff {img : RegisterImage} {t : CanonicalTime} :
    unpackImage img = .ok t ↔
      decSeconds img.sec = .ok t.seconds ∧ decMinutes img.min = .ok t.minutes ∧ decHours img.hr = .ok t.hours ∧
        decWeekday img.day = .ok t.weekday ∧ decDayOfMonth img.date = .ok t.dayOfMonth ∧
        decMonth img.mon = .ok t.month ∧ decYear img.yr = .ok t.year := by
  unfold unpackImage
  cases decSeconds img.sec <;> cases decMinutes img.min <;> cases decHours img.hr <;>
    cases decWeekday img.day <;> cases decDayOfMonth img.date <;> cases decMonth img.mon <;>
    cases decYear img.yr <;> obtain ⟨⟩ := t <;> simp [bind, Except.bind, pure, Except.pure]

/-- Packing succeeds exactly when every field converts (R124). -/
theorem packTime_ok_iff {t : CanonicalTime} {img : RegisterImage} :
    packTime t = .ok img ↔
      encSeconds t.seconds = .ok img.sec ∧ encMinutes t.minutes = .ok img.min ∧ encHours t.hours = .ok img.hr ∧
        encWeekday t.weekday = .ok img.day ∧ encDayOfMonth t.dayOfMonth = .ok img.date ∧
        encMonth t.month = .ok img.mon ∧ encYear t.year = .ok img.yr := by
  unfold packTime
  cases encSeconds t.seconds <;> cases encMinutes t.minutes <;> cases encHours t.hours <;>
    cases encWeekday t.weekday <;> cases encDayOfMonth t.dayOfMonth <;> cases encMonth t.month <;>
    cases encYear t.year <;> obtain ⟨⟩ := img <;> simp [bind, Except.bind, pure, Except.pure]

/-- All decode can answer with success (R120). -/
theorem decodeImage_ok_iff {img : RegisterImage} {t : CanonicalTime} :
    decodeImage img = .ok t ↔ unpackImage img = .ok t ∧ valid t = true := by
  unfold decodeImage
  cases h : unpackImage img with
  | error e => simp
  | ok t' =>
    by_cases hv : valid t' = true
    · simp only [hv, if_true, Except.ok.injEq]
      exact ⟨fun h => ⟨h, h ▸ hv⟩, fun h => h.1⟩
    · simp only [hv, if_false, reduceCtorEq, Except.ok.injEq, false_iff, not_and, Bool.false_eq_true]
      rintro rfl; exact hv

/-- All encode can answer with success (R124). -/
theorem encodeTime_ok_iff {t : CanonicalTime} {img : RegisterImage} :
    encodeTime t = .ok img ↔ valid t = true ∧ packTime t = .ok img := by
  unfold encodeTime
  by_cases hv : valid t = true <;> simp [hv]

/-- The ranges that `VALID` checks (R115). -/
theorem valid_ranges {t : CanonicalTime} (h : valid t = true) :
    (0 ≤ t.seconds ∧ t.seconds ≤ 59) ∧ (0 ≤ t.minutes ∧ t.minutes ≤ 59) ∧
      (0 ≤ t.hours ∧ t.hours ≤ 23) ∧ (0 ≤ t.weekday ∧ t.weekday ≤ 6) ∧
      (1 ≤ t.dayOfMonth ∧ t.dayOfMonth ≤ 31) ∧ (0 ≤ t.month ∧ t.month ≤ 11) ∧
      (100 ≤ t.year ∧ t.year ≤ 199) := of_decide_eq_true h

end Sys2Proof.Machine
end

