-- ==== Sys2Proof/Laws/PerInstr.lean ====
section
/-! SUPPORT. Statements made per instruction. -/

namespace Sys2Proof.Laws.EncodedOp

/-- The encoded operation never carries the reserved code (R70, R71). -/
def Statement (i : Instr) : Prop := (encode i).op.toNat < 7

theorem bcd2bin (byteIn : Byte) : Statement (.bcd2bin byteIn) := by simp [Statement, encode, Command.ofOp]

theorem bin2bcd (nIn : Int) : Statement (.bin2bcd nIn) := by simp [Statement, encode, Command.ofOp]

theorem decode (imageIn : RegisterImage) : Statement (.decode imageIn) := by
  simp [Statement, Sys2Proof.encode, Command.ofOp]

theorem encode (timeIn : CanonicalTime) : Statement (.encode timeIn) := by
  simp [Statement, Sys2Proof.encode, Command.ofOp]

theorem readTime : Statement .readTime := by simp [Statement, Sys2Proof.encode, Command.ofOp]

theorem setTime (timeIn : CanonicalTime) : Statement (.setTime timeIn) := by
  simp [Statement, Sys2Proof.encode, Command.ofOp]

theorem initSession : Statement .initSession := by simp [Statement, Sys2Proof.encode, Command.ofOp]

end Sys2Proof.Laws.EncodedOp
end

