-- ==== Sys2Proof/Tests/Slice0.lean ====
section
/-! SUPPORT. The model's own tests. Every expected value is one of spec/95_test_vectors.md (its id is named) or is written out by hand from the rule named. -/

namespace Sys2Proof.Tests

open Sys2Proof.Machine

/-- The time of vector S1. -/
def time0 : CanonicalTime := ⟨30, 15, 14, 2, 21, 5, 124⟩

/-- The image of vector S2. -/
def image0 : RegisterImage := ⟨0x30#8, 0x15#8, 0x14#8, 0x03#8, 0x21#8, 0x06#8, 0x24#8⟩

/-- The smallest valid time (E1). -/
def timeMin : CanonicalTime := ⟨0, 0, 0, 0, 1, 0, 100⟩

/-- The largest valid time (E2). -/
def timeMax : CanonicalTime := ⟨59, 59, 23, 6, 31, 11, 199⟩

/-- A chip that holds an image at the next call. -/
def holding (img : RegisterImage) : List (Offset × Byte) :=
  [(0, img.sec), (1, img.min), (2, img.hr), (3, img.day), (4, img.date), (5, img.mon), (6, img.yr)]

/-- A state with a given session state, chip image and answer of the bus. -/
def machine (session : SessionState) (img : RegisterImage) (reply : BusReply) : State :=
  { State.reset with session := session, bus := ⟨holding img, reply⟩ }

/-- What a test looks at: the next state, if there is one. -/
def nextOf : Host.Outcome State Fault Refusal → Option State
  | .next s => some s
  | .fault _ => none
  | .refused _ => none

/-- The result after an operation. -/
def resultOf (o : Host.Outcome State Fault Refusal) : Option OpResult := (nextOf o).bind State.result

/-! ## WellFormed: each check refuses an ill-formed term, and admits the port's edges (R67) -/

theorem test_wellFormed_bin2bcd_above : (Instr.bin2bcd 2147483648).wellFormed = false := by decide
theorem test_wellFormed_bin2bcd_below : (Instr.bin2bcd (-2147483649)).wellFormed = false := by decide
theorem test_wellFormed_bin2bcd_edges :
    (Instr.bin2bcd (-2147483648)).wellFormed = true ∧ (Instr.bin2bcd 2147483647).wellFormed = true := by decide
theorem test_wellFormed_encode_seconds :
    (Instr.encode { time0 with seconds := 2147483648 }).wellFormed = false := by decide
theorem test_wellFormed_encode_minutes :
    (Instr.encode { time0 with minutes := 2147483648 }).wellFormed = false := by decide
theorem test_wellFormed_encode_hours :
    (Instr.encode { time0 with hours := -2147483649 }).wellFormed = false := by decide
theorem test_wellFormed_encode_weekday :
    (Instr.encode { time0 with weekday := 4294967296 }).wellFormed = false := by decide
theorem test_wellFormed_setTime_dayOfMonth :
    (Instr.setTime { time0 with dayOfMonth := 2147483648 }).wellFormed = false := by decide
theorem test_wellFormed_setTime_month :
    (Instr.setTime { time0 with month := 2147483648 }).wellFormed = false := by decide
theorem test_wellFormed_setTime_year :
    (Instr.setTime { time0 with year := -2147483649 }).wellFormed = false := by decide

/-! ## Decoding: the command word of R70 and the operand on its port, bit by bit -/

theorem test_decode_bcd2bin : decode ⟨0b000#3, 0x59#8, 0, 0, TimePort.zero⟩ = .ok (.bcd2bin 0x59#8) := by decide
theorem test_decode_bin2bcd :
    decode ⟨0b001#3, 0, 0x0000003B#32, 0, TimePort.zero⟩ = .ok (.bin2bcd 59) := by decide
theorem test_decode_bin2bcd_negative :
    decode ⟨0b001#3, 0, 0x80000000#32, 0, TimePort.zero⟩ = .ok (.bin2bcd (-2147483648)) := by decide
theorem test_decode_decode :
    decode ⟨0b010#3, 0, 0, 0x24062103141530#56, TimePort.zero⟩ = .ok (.decode image0) := by decide
theorem test_decode_encode :
    decode ⟨0b011#3, 0, 0, 0, ⟨0x1E#32, 0x0F#32, 0x0E#32, 0x02#32, 0x15#32, 0x05#32, 0x7C#32⟩⟩ =
      .ok (.encode time0) := by decide
theorem test_decode_readTime : decode ⟨0b100#3, 0, 0, 0, TimePort.zero⟩ = .ok .readTime := by decide
theorem test_decode_setTime :
    decode ⟨0b101#3, 0, 0, 0, ⟨0xFFFFFFFF#32, 0x0F#32, 0x0E#32, 0x02#32, 0x15#32, 0x05#32, 0x7C#32⟩⟩ =
      .ok (.setTime { time0 with seconds := -1 }) := by decide
theorem test_decode_initSession : decode ⟨0b110#3, 0, 0, 0, TimePort.zero⟩ = .ok .initSession := by decide
theorem test_decode_reserved : decode ⟨0b111#3, 0, 0, 0, TimePort.zero⟩ = .error .reservedOp := by decide
/-- An operand port the operation does not use is ignored (R69). -/
theorem test_decode_ignores_unused_ports :
    decode ⟨0b100#3, 0xFF#8, 0x01#32, 0x01#56, TimePort.zero⟩ = .ok .readTime := by decide
theorem test_decodeTableWord_rows :
    (List.range 8).map (fun w => (decodeTableWord 8 w).isSome) =
      [true, true, true, true, true, true, true, false] := by decide

/-! ## The operations -/

/-- 2.1: `0x99` gives 99. -/
theorem test_bcd2bin_largest :
    resultOf (exec (.bcd2bin 0x99#8) State.reset) = some (.ok (.number 99)) := by decide
/-- 2.1: `0xA0` has a high nibble above 9. -/
theorem test_bcd2bin_high_nibble :
    resultOf (exec (.bcd2bin 0xA0#8) State.reset) = some (.codecErr .malformedBcd) := by decide
/-- 2.2: 59 gives `0x59`. -/
theorem test_bin2bcd_59 : resultOf (exec (.bin2bcd 59) State.reset) = some (.ok (.byte 0x59#8)) := by decide
/-- 2.2: -1 and 100 raise. -/
theorem test_bin2bcd_outside :
    resultOf (exec (.bin2bcd (-1)) State.reset) = some (.codecErr .fieldOutOfRange) ∧
      resultOf (exec (.bin2bcd 100) State.reset) = some (.codecErr .fieldOutOfRange) := by decide
/-- X1: every ignored bit set. -/
theorem test_decode_ignored_bits :
    resultOf (exec (.decode ⟨0xB0#8, 0x95#8, 0x94#8, 0xFB#8, 0xE1#8, 0xE6#8, 0x24#8⟩) State.reset) =
      some (.ok (.time time0 (-1) (-1))) := by decide
/-- X5 and X34: a 12-hour image reads as its raw numeral; MalformedBcd beats FieldOutOfRange. -/
theorem test_decode_mode_and_priority :
    decodeImage { image0 with hr := 0x72#8 } = .ok { time0 with hours := 12 } ∧
      decodeImage ⟨0x7A#8, 0x15#8, 0x24#8, 0x03#8, 0x21#8, 0x06#8, 0x24#8⟩ = .error .malformedBcd := by decide
/-- E2: the largest valid time. -/
theorem test_encode_largest :
    resultOf (exec (.encode timeMax) State.reset) =
      some (.ok (.image ⟨0x59#8, 0x59#8, 0x23#8, 0x07#8, 0x31#8, 0x12#8, 0x99#8⟩)) := by decide
/-- E13: year 99. -/
theorem test_encode_year_99 :
    resultOf (exec (.encode { time0 with year := 99 }) State.reset) = some (.codecErr .fieldOutOfRange) := by
  decide
/-- V8: a read in `Ready`. -/
theorem test_readTime_ready :
    (nextOf (exec .readTime (machine .ready image0 .ok))).map (fun s => (s.result, s.trace)) =
      some (some (.ok (.time time0 (-1) (-1))), [.bulkRead 0 7]) := by decide
/-- V10: X20's image, a malformed day of month. -/
theorem test_readTime_malformed :
    resultOf (exec .readTime (machine .ready { image0 with date := 0x2A#8 } .ok)) =
      some (.sessionErr (.codec .malformedBcd)) := by decide
/-- V12: the bytes written, and the chip afterwards. -/
theorem test_setTime_writes :
    (nextOf (exec (.setTime time0) (machine .ready ⟨0, 0, 0, 0, 0, 0, 0⟩ .ok))).map
        (fun s => (s.trace, s.chip)) =
      some ([.bulkWrite 0 [0x30#8, 0x15#8, 0x14#8, 0x03#8, 0x21#8, 0x06#8, 0x24#8]],
        [(0, 0x30#8), (1, 0x15#8), (2, 0x14#8), (3, 0x03#8), (4, 0x21#8), (5, 0x06#8), (6, 0x24#8)]) := by
  decide
/-- V7: an invalid time in `Uninitialized` is Refused, not FieldOutOfRange, with no call. -/
theorem test_setTime_refused :
    (nextOf (exec (.setTime { time0 with seconds := 60 }) (machine .uninitialized image0 .ok))).map
        (fun s => (s.result, s.trace)) = some (some .refused, []) := by decide
/-- V1: bring-up. -/
theorem test_initSession_ok :
    (nextOf (exec .initSession (machine .uninitialized image0 .ok))).map
        (fun s => (s.session, s.trace, s.chip.read? 2)) =
      some (.ready, [.writeSingle 2 0x00#8], some 0x00#8) := by decide
/-- V4: a failed repeat stays `Ready`; HR is not known any more (R47). -/
theorem test_initSession_err_in_ready :
    (nextOf (exec .initSession (machine .ready image0 (.err 7)))).map
        (fun s => (s.session, s.result, s.chip.read? 2)) =
      some (.ready, some (.sessionErr (.transport 7)), none) := by decide

/-! ## Steps -/

/-- From reset, the word of INITIALIZE runs in the very next step. -/
theorem test_step_first_instruction :
    step (State.reset.withFetchWord 8 6) = exec .initSession State.reset := by rfl
/-- V15: `op = 7`. -/
theorem test_step_reserved : resultOf (step (State.reset.withFetchWord 8 7)) = some .refused := by decide
/-- The host's reset takes a ready block back to `Uninitialized` (R185). -/
theorem test_step_reset :
    (nextOf (step { machine .ready image0 .ok with inbox := [.reset] })).map (fun s => s.session) =
      some .uninitialized := by decide

end Sys2Proof.Tests
end

