-- ==== Sys2Proof/Tests/Witnesses.lean ====
section
/-! SUPPORT. For every statement with hypotheses, a concrete state and operands that meet them, clause by clause, at a boundary where a clause has a range. -/

namespace Sys2Proof.Tests

open Sys2Proof.Machine

/-- A malformed image (X16) and images with a field out of range: X36 at the low end, X38 at the high end. -/
def imageBad : RegisterImage := { image0 with sec := 0x3A#8 }
def imageZero : RegisterImage := ⟨0, 0, 0, 0, 0, 0, 0⟩
def imageTop : RegisterImage := ⟨0x79#8, 0x79#8, 0x39#8, 0x07#8, 0x39#8, 0x19#8, 0x99#8⟩

/-- A command event for an operation, on a bus that answers so. -/
def eventOf (i : Instr) (reply : BusReply) : Event := .command (encode i) ⟨holding image0, reply⟩

/-- A state whose next event is the given one. -/
def facing (session : SessionState) (e : Event) : State := { machine session image0 .ok with inbox := [e] }

theorem inRange_time0 : Claims.InRange time0 := by unfold Claims.InRange; decide
theorem inRange_timeMin : Claims.InRange timeMin := by unfold Claims.InRange; decide
theorem inRange_timeMax : Claims.InRange timeMax := by unfold Claims.InRange; decide
theorem notInRange_year99 : ¬ Claims.InRange { time0 with year := 99 } := by unfold Claims.InRange; decide
theorem notInRange_second60 : ¬ Claims.InRange { time0 with seconds := 60 } := by unfold Claims.InRange; decide
theorem malformed_imageBad : Claims.Malformed imageBad := by unfold Claims.Malformed; decide
theorem wellDigits_image0 : ¬ Claims.Malformed image0 := by unfold Claims.Malformed; decide
theorem wellDigits_imageZero : ¬ Claims.Malformed imageZero := by unfold Claims.Malformed; decide
theorem wellDigits_imageTop : ¬ Claims.Malformed imageTop := by unfold Claims.Malformed; decide
theorem outside_imageZero : ¬ Claims.InRange (Claims.readOut imageZero) := by unfold Claims.InRange; decide
theorem outside_imageTop : ¬ Claims.InRange (Claims.readOut imageTop) := by unfold Claims.InRange; decide
theorem inside_image0 : Claims.InRange (Claims.readOut image0) := by unfold Claims.InRange; decide
theorem decode_image0 : decodeImage image0 = .ok time0 := by decide
theorem encode_time0 : encodeTime time0 = .ok image0 := by decide

theorem witness_Bcd2binReadsTwoDigits :
    (Claims.tens 0x99#8 ≤ 9 ∧ Claims.units 0x99#8 ≤ 9) ∧ 9 < Claims.tens 0xA0#8 ∧ 9 < Claims.units 0x0A#8 := by
  decide

theorem witness_Bin2bcdWritesTwoDigits :
    ((0 : Int) ≤ 0 ∧ (99 : Int) ≤ 99) ∧ (-1 : Int) < 0 ∧ (99 : Int) < 100 ∧ Claims.InRange timeMax :=
  ⟨by decide, by decide, by decide, inRange_timeMax⟩

theorem witness_BcdConversionsInverse : ((0 : Int) ≤ 99 ∧ (99 : Int) ≤ 99) ∧ bcdToBin 0x99#8 = .ok 99 := by decide

theorem witness_BinToBcdIncreasing :
    (9 : Int) < 10 ∧ binToBcd 9 = .ok 0x09#8 ∧ binToBcd 10 = .ok 0x10#8 := by decide

theorem witness_DecodeTranslatorRanges :
    decSeconds 0x79#8 = .ok 79 ∧ decMinutes 0x00#8 = .ok 0 ∧
      (decHours 0x59#8 = .ok 19 ∧ (0x59#8 : Byte).getLsbD 6 = true) ∧
      (decHours 0x39#8 = .ok 39 ∧ (0x39#8 : Byte).getLsbD 6 = false) ∧ decWeekday 0x00#8 = .ok (-1) ∧
      decDayOfMonth 0x39#8 = .ok 39 ∧ decMonth 0x19#8 = .ok 18 ∧ decYear 0x99#8 = .ok 199 := by decide

theorem witness_EncodeTranslatorsByField :
    ((0 : Int) ≤ 59 ∧ (59 : Int) ≤ 59) ∧ ((0 : Int) ≤ 23 ∧ (23 : Int) ≤ 23) ∧ ((0 : Int) ≤ 6 ∧ (6 : Int) ≤ 6) ∧
      ((1 : Int) ≤ 31 ∧ (31 : Int) ≤ 31) ∧ (0 : Int) ≤ 11 ∧ (11 : Int) ≤ 11 := by decide

theorem witness_YearTranslatorsInverse :
    ((100 : Int) ≤ 100 ∧ (199 : Int) ≤ 199) ∧ decYear 0x99#8 = .ok 199 := by decide

theorem witness_ValidIsTheSevenRanges :
    ¬ Claims.InRange { time0 with year := 99 } ∧ decodeImage image0 = .ok time0 :=
  ⟨notInRange_year99, decode_image0⟩

theorem witness_DecodeUnpacksImage :
    Claims.Malformed imageBad ∧ (¬ Claims.Malformed imageTop ∧ ¬ Claims.InRange (Claims.readOut imageTop)) ∧
      ¬ Claims.Malformed image0 ∧ Claims.InRange (Claims.readOut image0) :=
  ⟨malformed_imageBad, ⟨wellDigits_imageTop, outside_imageTop⟩, wellDigits_image0, inside_image0⟩

theorem witness_DecodeNeverRepairs :
    (exec (.decode image0) State.reset =
        .next { State.reset with result := some (.ok (.time time0 (-1) (-1))) }) ∧
      Claims.Malformed imageBad ∧ ¬ Claims.InRange (Claims.readOut imageZero) :=
  ⟨rfl, malformed_imageBad, outside_imageZero⟩

theorem witness_EncodePacksTime : Claims.InRange timeMin ∧ ¬ Claims.InRange { time0 with seconds := 60 } :=
  ⟨inRange_timeMin, notInRange_second60⟩

theorem witness_EncodedImageClean :
    encodeTime timeMax = .ok ⟨0x59#8, 0x59#8, 0x23#8, 0x07#8, 0x31#8, 0x12#8, 0x99#8⟩ := by decide

theorem witness_DecodeOfEncodeIsIdentity : Claims.InRange timeMin ∧ Claims.InRange timeMax :=
  ⟨inRange_timeMin, inRange_timeMax⟩

theorem witness_EncodeOfDecodeClearsIgnored :
    decodeImage { image0 with sec := 0xB0#8 } = .ok time0 ∧
      decodeImage { image0 with hr := 0x72#8 } = .ok { time0 with hours := 12 } := by decide

theorem witness_CodecTotalAndMonotone :
    Claims.InRange timeMax ∧
      (encodeTime timeMin = .ok ⟨0x00#8, 0x00#8, 0x00#8, 0x01#8, 0x01#8, 0x01#8, 0x00#8⟩ ∧
        encodeTime timeMax = .ok ⟨0x59#8, 0x59#8, 0x23#8, 0x07#8, 0x31#8, 0x12#8, 0x99#8⟩ ∧
        timeMin.seconds < timeMax.seconds ∧ timeMin.minutes < timeMax.minutes ∧ timeMin.hours < timeMax.hours ∧
        timeMin.weekday < timeMax.weekday ∧ timeMin.dayOfMonth < timeMax.dayOfMonth ∧
        timeMin.month < timeMax.month ∧ timeMin.year < timeMax.year) ∧
      ¬ Claims.InRange { time0 with year := 99 } ∧ Claims.Malformed imageBad ∧
      ¬ Claims.InRange (Claims.readOut imageTop) :=
  ⟨inRange_timeMax, by decide, notInRange_year99, malformed_imageBad, outside_imageTop⟩

theorem witness_IgnoredBitsHaveNoEffect :
    Claims.SameConsumed ⟨0xB0#8, 0x95#8, 0x94#8, 0xFB#8, 0xE1#8, 0xE6#8, 0x24#8⟩ image0 ∧
    (Claims.SameConsumed (imageHeld (machine .ready { image0 with sec := 0xB0#8 } .ok))
        (imageHeld (machine .ready image0 .ok)) ∧
      (nextOf (exec .readTime (machine .ready { image0 with sec := 0xB0#8 } .ok))).isSome = true ∧
      (nextOf (exec .readTime (machine .ready image0 .ok))).isSome = true) := by
  unfold Claims.SameConsumed; decide

theorem witness_TwelveHourReadsRawNumeral :
    (0x72#8 : Byte).getLsbD 6 = true ∧ decodeImage { image0 with hr := 0x72#8 } = .ok { time0 with hours := 12 } ∧
      decHours 0x72#8 = .ok 12 := by decide

theorem witness_CodecOperationsArePure :
    Claims.IsCodec (.bcd2bin 0) ∧ Claims.IsCodec (.bin2bcd 0) ∧ Claims.IsCodec (.decode image0) ∧
      Claims.IsCodec (.encode time0) := ⟨trivial, trivial, trivial, trivial⟩

theorem witness_ReadTimeReadsOnce :
    (machine .uninitialized image0 .ok).session = .uninitialized ∧
    ((machine .ready image0 (.err 7)).session = .ready ∧ (machine .ready image0 (.err 7)).bus.reply = .err 7) ∧
    ((machine .ready imageBad .ok).bus.reply = .ok ∧
      decodeImage (imageHeld (machine .ready imageBad .ok)) = .error .malformedBcd) ∧
    ((machine .ready image0 .ok).bus.reply = .ok ∧
      decodeImage (imageHeld (machine .ready image0 .ok)) = .ok time0) := by decide

theorem witness_ReadDeliversAnyBytes :
    (machine .ready image0 .ok).session = .ready ∧ decodeImage image0 = .ok time0 ∧
      decodeImage imageBad = .error .malformedBcd := by decide

theorem witness_SetTimeWritesOnce :
    (machine .uninitialized image0 .ok).session = .uninitialized ∧ (machine .ready image0 .ok).session = .ready ∧
      ¬ Claims.InRange { time0 with year := 99 } ∧ Claims.InRange timeMax ∧
      (machine .ready image0 .ok).bus.reply.Stores ∧ (machine .ready image0 .okWrongLength).bus.reply.Stores ∧
      (machine .ready image0 (.err 7)).bus.reply = .err 7 :=
  ⟨rfl, rfl, notInRange_year99, inRange_timeMax, .inl rfl, .inr rfl, rfl⟩

theorem witness_InitializeWritesModeByte :
    (machine .uninitialized image0 .ok).bus.reply.Stores ∧ (machine .ready image0 .okWrongLength).bus.reply.Stores ∧
      (machine .ready image0 (.err 7)).bus.reply = .err 7 := ⟨.inl rfl, .inr rfl, rfl⟩

/-- Bring-up with the byte 0x23 on a chip that holds S2's image otherwise, then a read. -/
theorem witness_BringUpSetsTheHour :
    (0x23#8 : Byte).getLsbD 6 = false ∧ (machine .uninitialized image0 .ok).bus.reply = .ok ∧
    ((nextOf (bringUp 0x23#8 (machine .uninitialized image0 .ok))).bind
        (fun s => resultOf (exec .readTime { s with bus := Claims.quietBus }))) =
      some (.ok (.time { time0 with hours := 23 } (-1) (-1))) ∧
    ((nextOf (exec .initSession (machine .uninitialized image0 .ok))).bind
        (fun s => resultOf (exec .readTime { s with bus := Claims.quietBus }))) =
      some (.ok (.time { time0 with hours := 0 } (-1) (-1))) := by decide

theorem witness_GateRefusesBeforeBringUp :
    (machine .uninitialized image0 .ok).session = .uninitialized ∧
      resultOf (exec .readTime (machine .uninitialized image0 .ok)) = some .refused := by decide

theorem witness_SessionStateTransitions :
    (nextOf (exec .initSession (machine .uninitialized image0 .ok))).isSome = true ∧
    (Instr.bcd2bin 0 ≠ .initSession ∧ (nextOf (exec (.bcd2bin 0) State.reset)).isSome = true) ∧
    (nextOf (exec .readTime (machine .uninitialized image0 .ok))).isSome = true ∧
    (nextOf (exec (.setTime time0) (machine .uninitialized image0 .ok))).isSome = true ∧
    ((Command.ofOp 7).op = 7 ∧
      (nextOf (step (facing .ready (.command (Command.ofOp 7) Claims.quietBus)))).isSome = true) ∧
    ((facing .ready .reset).session = .ready ∧
      (nextOf (step (facing .ready .reset))).map (fun s => s.session) = some .uninitialized) := by decide

theorem witness_AtMostOneCallOfItsShape :
    (nextOf (exec .readTime (machine .ready image0 .ok))).isSome = true ∧
    ((machine .ready image0 .ok).session = .ready ∧ encodeTime time0 = .ok image0 ∧
      (nextOf (exec (.setTime time0) (machine .ready image0 .ok))).isSome = true) ∧
    (nextOf (exec .initSession (machine .ready image0 .ok))).isSome = true ∧
    (nextOf (exec (.bcd2bin 0) State.reset)).isSome = true := by decide

theorem witness_OffsetsAboveSixUntouched :
    6 < 7 ∧ (nextOf (exec (.setTime time0) (machine .ready image0 .ok))).isSome = true := by decide

theorem witness_SetThenReadReturnsTheTime :
    (machine .ready imageBad .ok).session = .ready ∧ Claims.InRange timeMax ∧
      (machine .ready imageBad .ok).bus.reply = .ok := ⟨rfl, inRange_timeMax, rfl⟩

theorem witness_SetTimeClearsFlagBits :
    (machine .ready { image0 with sec := 0xB0#8 } .ok).session = .ready ∧ Claims.InRange time0 ∧
      (machine .ready { image0 with sec := 0xB0#8 } .ok).bus.reply = .ok := ⟨rfl, inRange_time0, rfl⟩

theorem witness_OnlyBringUpBeforeReady :
    (facing .uninitialized (eventOf .initSession .ok)).session = .uninitialized ∧
      (nextOf (step (facing .uninitialized (eventOf .initSession .ok)))).isSome = true := by decide

theorem witness_ChipInvisibleExceptToReadTime :
    Instr.setTime time0 ≠ .readTime ∧
      (machine .ready image0 .ok).session = (machine .ready imageBad .ok).session ∧
      (machine .ready image0 .ok).trace = (machine .ready imageBad .ok).trace ∧
      (machine .ready image0 .ok).bus.reply = (machine .ready imageBad .ok).bus.reply ∧
      (nextOf (exec (.setTime time0) (machine .ready image0 .ok))).isSome = true := by decide

theorem witness_OutcomeTable :
    (nextOf (exec .readTime (machine .ready image0 .ok))).isSome = true ∧ 6 < 7 ∧
      (1 : BitVec 3) ∈ Claims.outcomes 6 := by decide

theorem witness_MalformedBcdRaisedByReaders :
    resultOf (exec (.bcd2bin 0xFF#8) State.reset) = some (.codecErr .malformedBcd) ∧
    resultOf (exec (.decode imageBad) State.reset) = some (.codecErr .malformedBcd) ∧
    resultOf (exec .readTime (machine .ready imageBad .ok)) = some (.sessionErr (.codec .malformedBcd)) ∧
    9 < Claims.units 0x0A#8 ∧ 9 < Claims.tens 0xA0#8 := by decide

theorem witness_ErrorsLeaveSessionState :
    (resultOf (exec .initSession (machine .ready image0 (.err 7))) = some (.sessionErr (.transport 7)) ∧
      (OpResult.sessionErr (.transport 7)).status ≠ 0) ∧
    resultOf (exec (.setTime { time0 with seconds := 60 }) (machine .ready image0 .ok)) =
      some (.sessionErr (.codec .fieldOutOfRange)) ∧
    resultOf (exec .readTime (machine .ready image0 (.err 7))) = some (.sessionErr (.transport 7)) ∧
    resultOf (exec (.setTime time0) (machine .ready image0 (.err 7))) = some (.sessionErr (.transport 7)) ∧
    0 < 7 ∧ 6 < 7 := by decide

theorem witness_OutcomePriority :
    ((machine .uninitialized image0 .ok).session = .uninitialized ∧
      (nextOf (exec (.setTime { time0 with year := 99 }) (machine .uninitialized image0 .ok))).isSome = true) ∧
    ((machine .ready image0 (.err 7)).session = .ready ∧ ¬ Claims.InRange { time0 with year := 99 } ∧
      (nextOf (exec (.setTime { time0 with year := 99 }) (machine .ready image0 (.err 7)))).isSome = true) ∧
    ((machine .ready imageBad (.err 7)).bus.reply = .err 7 ∧
      (nextOf (exec .readTime (machine .ready imageBad (.err 7)))).isSome = true) ∧
    (Claims.Malformed (imageHeld (machine .ready imageBad .ok)) ∧
      (nextOf (exec .readTime (machine .ready imageBad .ok))).isSome = true) ∧
    (Claims.Malformed imageBad ∧ (nextOf (exec (.decode imageBad) State.reset)).isSome = true) :=
  ⟨by decide, ⟨rfl, notInRange_year99, by decide⟩, by decide, ⟨malformed_imageBad, by decide⟩,
    malformed_imageBad, by decide⟩

theorem witness_TransportCodePassedThrough :
    ((machine .ready image0 (.err 7)).session = .ready ∧ (machine .ready image0 (.err 7)).bus.reply = .err 7 ∧
      Claims.InRange time0) ∧
    resultOf (exec .readTime (machine .ready image0 (.err 7))) = some (.sessionErr (.transport 7)) ∧
    resultOf (exec (.setTime time0) (machine .ready image0 (.err 7))) = some (.sessionErr (.transport 7)) ∧
    resultOf (exec .initSession (machine .ready image0 (.err 7))) = some (.sessionErr (.transport 7)) :=
  ⟨⟨rfl, rfl, inRange_time0⟩, by decide⟩

theorem witness_SilentBusHangs :
    (machine .ready image0 .noAnswer).session = .ready ∧ (machine .ready image0 .noAnswer).bus.reply = .noAnswer ∧
      Claims.InRange time0 := ⟨rfl, rfl, inRange_time0⟩

theorem witness_WrongLengthReadRefused :
    (machine .ready image0 .okWrongLength).session = .ready ∧
      (machine .ready image0 .okWrongLength).bus.reply = .okWrongLength := ⟨rfl, rfl⟩

theorem witness_ResultPortsShowTheResult :
    (bcdToBin 0x99#8 = .ok 99 ∧ (nextOf (exec (.bcd2bin 0x99#8) State.reset)).isSome = true) ∧
    (binToBcd 0 = .ok 0x00#8 ∧ (nextOf (exec (.bin2bcd 0) State.reset)).isSome = true) ∧
    (decodeImage image0 = .ok time0 ∧ (nextOf (exec (.decode image0) State.reset)).isSome = true) ∧
    (encodeTime time0 = .ok image0 ∧ (nextOf (exec (.encode time0) State.reset)).isSome = true) ∧
    (decodeImage (imageHeld (machine .ready image0 .ok)) = .ok time0 ∧
      (nextOf (exec .readTime (machine .ready image0 .ok))).isSome = true) ∧
    ((machine .ready image0 .okWrongLength).bus.reply.Stores ∧
      (nextOf (exec (.setTime time0) (machine .ready image0 .okWrongLength))).isSome = true ∧
      (nextOf (exec .initSession (machine .uninitialized image0 .ok))).isSome = true) ∧
    resultOf (exec .readTime (machine .ready image0 (.err 7))) = some (.sessionErr (.transport 7)) ∧
    ((nextOf (exec .readTime State.reset)).bind State.statusOut = some 4 ∧ (4 : BitVec 3) ≠ 0 ∧
      (4 : BitVec 3) ≠ 1) ∧
    State.reset.result = none := by decide

theorem witness_StepRunsDecodedOperation :
    ((facing .ready (eventOf (.setTime time0) .ok)).inbox =
        [.command (encode (.setTime time0)) ⟨holding image0, .ok⟩] ∧
      decode (encode (.setTime time0)) = .ok (.setTime time0)) ∧
    decodeTableWord 8 4 = some .readTime := by decide

theorem witness_ReservedOpRefused :
    (facing .ready (.command (Command.ofOp 7) Claims.quietBus)).inbox =
        [.command (Command.ofOp 7) Claims.quietBus] ∧ (Command.ofOp 7).op = 7 := by decide

theorem witness_ResetTouchesOnlyTheBlock :
    (facing .ready .reset).inbox = [.reset] ∧ State.reset.inbox = [] := by decide

theorem witness_DecodeOfEncodedOperation :
    (Instr.setTime { time0 with seconds := -2147483648, year := 2147483647 }).wellFormed = true := by decide

theorem witness_DecodedPortsAreCanonical :
    decode ⟨0, 0xFF#8, 1, 1, TimePort.zero⟩ = .ok (.bcd2bin 0xFF#8) ∧
      decode ⟨1, 1, 0x80000000#32, 1, TimePort.zero⟩ = .ok (.bin2bcd (-2147483648)) ∧
      decode ⟨2, 1, 1, 0x24062103141530#56, TimePort.zero⟩ = .ok (.decode image0) ∧
      decode ⟨3, 1, 1, 1, TimePort.zero⟩ = .ok (.encode ⟨0, 0, 0, 0, 0, 0, 0⟩) ∧
      decode ⟨4, 1, 1, 1, TimePort.zero⟩ = .ok .readTime ∧
      decode ⟨5, 1, 1, 1, TimePort.zero⟩ = .ok (.setTime ⟨0, 0, 0, 0, 0, 0, 0⟩) ∧
      decode ⟨6, 1, 1, 1, TimePort.zero⟩ = .ok .initSession := by decide

theorem witness_ImagePortBitLayout :
    (imageBytes image0)[0]? = some 0x30#8 ∧ (imageBytes image0)[6]? = some 0x24#8 ∧ 0 < 8 ∧ 7 < 8 := by decide

/-- A state the invariant holds in, `Ready` after a bring-up and with a time set, whose next step goes on. -/
theorem witness_StepKeepsInvariant :
    State.Inv { facing .ready (eventOf .readTime .ok) with
      trace := [.writeSingle 2 0x00#8, .bulkRead 0 7], result := some (.ok (.time time0 (-1) (-1))) } ∧
    (nextOf (step { facing .ready (eventOf .readTime .ok) with
      trace := [.writeSingle 2 0x00#8, .bulkRead 0 7],
      result := some (.ok (.time time0 (-1) (-1))) })).isSome = true := by
  refine ⟨⟨by decide, ?_, ?_, fun _ => by decide⟩, by decide⟩
  · intro c hc
    simp only [List.mem_cons, List.not_mem_nil, or_false] at hc
    rcases hc with rfl | rfl
    · exact ⟨rfl, rfl⟩
    · exact ⟨rfl, rfl⟩
  · intro r hr
    cases hr
    exact ⟨by decide, rfl, rfl⟩

theorem witness_TransportCodesAreOpaque :
    resultOf (exec .readTime (machine .ready image0 (.err 4294967296))) =
      some (.sessionErr (.transport 4294967296)) := by decide

end Sys2Proof.Tests
end

section
/-! The codec operations: each ends with the codec's answer to its operand, in every state (R22). -/

namespace Sys2Proof.Machine

theorem State.finish_eq (s : State) (r : OpResult) : s.finish r = { s with result := some r } := rfl

/-! One equation per codec operation: what it runs to, in every state. -/

@[simp] theorem exec_bcd2bin (b : Byte) (s : State) :
    exec (.bcd2bin b) s = .next (s.finish (codecResult .number (bcdToBin b))) := rfl

@[simp] theorem exec_bin2bcd (n : Int) (s : State) :
    exec (.bin2bcd n) s = .next (s.finish (codecResult .byte (binToBcd n))) := rfl

@[simp] theorem exec_decode (img : RegisterImage) (s : State) :
    exec (.decode img) s = .next (s.finish (codecResult timeValue (decodeImage img))) := rfl

@[simp] theorem exec_encode (t : CanonicalTime) (s : State) :
    exec (.encode t) s = .next (s.finish (codecResult .image (encodeTime t))) := rfl

/-- An operation that ends in every state with one and the same result is pure in the sense of R22: that result
is all it changes. -/
theorem exists_result_of_exec_eq_finish {i : Instr} {r : OpResult} (h : ∀ s, exec i s = .next (s.finish r)) :
    ∃ r, ∀ s : State, exec i s = .next { s with result := some r } :=
  ⟨r, fun s => by rw [h s, State.finish_eq]⟩

/-- Settles O19: each of the four codec operations finishes with the codec's answer to its operand, in which the
state does not occur; the session operations are no codec operations. -/
theorem codecOperationsArePure : Obligations.CodecOperationsArePure := by
  unfold Obligations.CodecOperationsArePure
  intro i hi
  cases i with
  | bcd2bin b => exact exists_result_of_exec_eq_finish (exec_bcd2bin b)
  | bin2bcd n => exact exists_result_of_exec_eq_finish (exec_bin2bcd n)
  | decode img => exact exists_result_of_exec_eq_finish (exec_decode img)
  | encode t => exact exists_result_of_exec_eq_finish (exec_encode t)
  | readTime | setTime t | initSession => exact False.elim hi

end Sys2Proof.Machine
end

section
/-! The failed bus call: what each session operation runs to when the RegisterInterface answers with a code
(R58, R161). -/

namespace Sys2Proof.Machine

/-! What SET_TIME puts on the bus: a time in range encodes to the image of its digits (R115, R124). -/

theorem valid_iff_inRange {t : CanonicalTime} : valid t = true ↔ Claims.InRange t := by
  simp [valid, Claims.InRange, Config.yearMin, Config.yearMax, and_assoc]

theorem binToBcd_eq_digits {n : Int} (h0 : 0 ≤ n) (h99 : n ≤ 99) : binToBcd n = .ok (Claims.digits n) := by
  refine binToBcd_ok_iff.2 ⟨⟨h0, h99⟩, ?_⟩
  simp only [Claims.digits, BitVec.toNat_ofNat]
  omega

theorem packTime_eq_packed {t : CanonicalTime} (h : Claims.InRange t) : packTime t = .ok (Claims.packed t) := by
  obtain ⟨hsec, hsec', hmin, hmin', hhr, hhr', hday, hday', hdate, hdate', hmon, hmon', -, -⟩ := h
  exact packTime_ok_iff.2
    ⟨binToBcd_eq_digits hsec (by omega), binToBcd_eq_digits hmin (by omega), binToBcd_eq_digits hhr (by omega),
      binToBcd_eq_digits (by omega) (by omega), binToBcd_eq_digits (by omega) (by omega),
      binToBcd_eq_digits (by omega) (by omega), binToBcd_eq_digits (by omega) (by omega)⟩

theorem encodeTime_eq_packed {t : CanonicalTime} (h : Claims.InRange t) :
    encodeTime t = .ok (Claims.packed t) :=
  encodeTime_ok_iff.2 ⟨valid_iff_inRange.2 h, packTime_eq_packed h⟩

/-! Each session operation on a call that fails: one call on the trace, and the code in the result. -/

theorem exec_readTime_err {s : State} {code : Config.TCode} (hs : s.session = .ready)
    (hr : s.bus.reply = .err code) :
    exec .readTime s = .next ((s.afterCall (.bulkRead imageOffset imageCount) s.chipNow).finish
      (.sessionErr (.transport code))) := by
  simp [exec, execReadTime, whenReady, hs, memRead_err image_in_space hr]

theorem exec_setTime_err {t : CanonicalTime} {img : RegisterImage} {s : State} {code : Config.TCode}
    (hs : s.session = .ready) (he : encodeTime t = .ok img) (hr : s.bus.reply = .err code) :
    exec (.setTime t) s = .next ((s.afterCall (.bulkWrite imageOffset (imageBytes img))
      (s.chipNow.forgetRange imageOffset.toNat (imageBytes img).length)).finish
        (.sessionErr (.transport code))) := by
  simp [exec, execSetTime, whenReady, hs, he, memWrite, memStore_err (imageBytes_in_space img) hr]

theorem exec_initSession_err {s : State} {code : Config.TCode} (hr : s.bus.reply = .err code) :
    exec .initSession s = .next ((s.afterCall (.writeSingle hoursOffset modeByte)
      (s.chipNow.forgetRange hoursOffset.toNat 1)).finish (.sessionErr (.transport code))) := by
  simp [exec, execInitSession, bringUp, memWrite1, memStore_err (hours_in_space modeByte) hr]

/-! The operations that end before their call: the gate (R147), and SET_TIME's codec error (R143). -/

theorem exec_readTime_uninitialized {s : State} (hs : s.session = .uninitialized) :
    exec .readTime s = .next (s.finish .refused) := by
  simp [exec, execReadTime, whenReady, hs]

theorem exec_setTime_uninitialized {t : CanonicalTime} {s : State} (hs : s.session = .uninitialized) :
    exec (.setTime t) s = .next (s.finish .refused) := by
  simp [exec, execSetTime, whenReady, hs]

theorem exec_setTime_codecError {t : CanonicalTime} {e : CodecError} {s : State} (hs : s.session = .ready)
    (he : encodeTime t = .error e) :
    exec (.setTime t) s = .next (s.finish (.sessionErr (.codec e))) := by
  simp [exec, execSetTime, whenReady, hs, he]

/-! Where `Transport(code)` can come from. -/

theorem codecResult_ne_sessionErr {α : Type} (value : α → Value) (r : Except CodecError α) (e : SessionError) :
    codecResult value r ≠ .sessionErr e := by
  cases r <;> simp [codecResult]

theorem sessionResult_ne_transport {α : Type} (value : α → Value) (r : Except CodecError α)
    (code : Config.TCode) : sessionResult value r ≠ .sessionErr (.transport code) := by
  cases r <;> simp [sessionResult]

/-- A codec operation ends in every state with the same result, and it is no session error (R22, R160). -/
theorem exec_eq_finish_of_isCodec {i : Instr} (hi : Claims.IsCodec i) :
    ∃ r, (∀ e, r ≠ .sessionErr e) ∧ ∀ s, exec i s = .next (s.finish r) := by
  cases i with
  | bcd2bin b => exact ⟨_, codecResult_ne_sessionErr _ _, exec_bcd2bin b⟩
  | bin2bcd n => exact ⟨_, codecResult_ne_sessionErr _ _, exec_bin2bcd n⟩
  | decode img => exact ⟨_, codecResult_ne_sessionErr _ _, exec_decode img⟩
  | encode t => exact ⟨_, codecResult_ne_sessionErr _ _, exec_encode t⟩
  | readTime | setTime t | initSession => exact False.elim hi

theorem not_isCodec_of_transport {i : Instr} {s s' : State} {code : Config.TCode} (h : exec i s = .next s')
    (hres : s'.result = some (.sessionErr (.transport code))) : ¬ Claims.IsCodec i := by
  intro hi
  obtain ⟨r, hr, hexec⟩ := exec_eq_finish_of_isCodec hi
  rw [hexec s] at h
  cases h
  exact hr _ (Option.some.inj hres)

/-- `Transport(code)` is reported only where the call failed with that code (R161): every other way a session
operation can end has another result. -/
theorem reply_eq_err_of_transport {i : Instr} {s s' : State} {code : Config.TCode} (h : exec i s = .next s')
    (hres : s'.result = some (.sessionErr (.transport code))) : s.bus.reply = .err code := by
  have hcodec := not_isCodec_of_transport h hres
  cases i with
  | bcd2bin _ | bin2bcd _ | decode _ | encode _ => exact absurd trivial hcodec
  | readTime =>
    obtain ⟨-, rfl⟩ | ⟨-, -, rfl⟩ | ⟨c, -, hr, rfl⟩ := execReadTime_next h
    · simp at hres
    · exact absurd (Option.some.inj hres) (sessionResult_ne_transport _ _ _)
    · cases Option.some.inj hres
      exact hr
  | setTime t =>
    obtain ⟨-, rfl⟩ | ⟨e, -, -, rfl⟩ | ⟨img, -, -, -, rfl⟩ | ⟨img, c, -, -, hr, rfl⟩ := execSetTime_next h
    · simp at hres
    · simp at hres
    · simp at hres
    · cases Option.some.inj hres
      exact hr
  | initSession =>
    obtain ⟨-, rfl⟩ | ⟨c, hr, rfl⟩ := bringUp_next h
    · simp at hres
    · cases Option.some.inj hres
      exact hr

/-! Any two codes are treated alike. -/

/-- The same state, but that the next call fails with `code`. -/
def State.failingWith (s : State) (code : Config.TCode) : State := { s with bus := ⟨s.bus.drift, .err code⟩ }

/-- Two states agree in the session state, the chip and the bus trace. -/
abbrev State.SameButResult (s t : State) : Prop := s.session = t.session ∧ s.chip = t.chip ∧ s.trace = t.trace

/-- Two runs whose ends are known agree when those ends do. -/
theorem exists_sameButResult {o o' : Host.Outcome State Fault Refusal} {s' u v : State} (h : o = .next s')
    (hu : o = .next u) (hv : o' = .next v) (huv : u.SameButResult v) :
    ∃ t', o' = .next t' ∧ s'.SameButResult t' := by
  rw [hu] at h
  cases h
  exact ⟨v, hv, huv⟩

/-- The code of a failed call reaches nothing but the result (R58): with another code the operation ends the same
way, before its call or after it. -/
theorem exec_failingWith {i : Instr} {s s' : State} {code : Config.TCode} (code' : Config.TCode)
    (hr : s.bus.reply = .err code) (h : exec i s = .next s') :
    ∃ t', exec i (s.failingWith code') = .next t' ∧ s'.SameButResult t' := by
  by_cases hi : Claims.IsCodec i
  · obtain ⟨r, -, hexec⟩ := exec_eq_finish_of_isCodec hi
    exact exists_sameButResult h (hexec s) (hexec _) ⟨rfl, rfl, rfl⟩
  cases i with
  | bcd2bin _ | bin2bcd _ | decode _ | encode _ => exact absurd trivial hi
  | readTime =>
    cases hs : s.session with
    | uninitialized =>
      exact exists_sameButResult h (exec_readTime_uninitialized hs) (exec_readTime_uninitialized hs) ⟨rfl, rfl, rfl⟩
    | ready => exact exists_sameButResult h (exec_readTime_err hs hr) (exec_readTime_err hs rfl) ⟨rfl, rfl, rfl⟩
  | setTime t =>
    cases hs : s.session with
    | uninitialized =>
      exact exists_sameButResult h (exec_setTime_uninitialized hs) (exec_setTime_uninitialized hs) ⟨rfl, rfl, rfl⟩
    | ready =>
      cases he : encodeTime t with
      | error e =>
        exact exists_sameButResult h (exec_setTime_codecError hs he) (exec_setTime_codecError hs he) ⟨rfl, rfl, rfl⟩
      | ok img =>
        exact exists_sameButResult h (exec_setTime_err hs he hr) (exec_setTime_err hs he rfl) ⟨rfl, rfl, rfl⟩
  | initSession =>
    exact exists_sameButResult h (exec_initSession_err hr) (exec_initSession_err rfl) ⟨rfl, rfl, rfl⟩

/-- Settles O38: each session operation has one equation for a failed call, which puts that one call on the trace
and the code in the result; no other way an operation ends reports Transport; and the equation's other fields do
not mention the code. -/
theorem transportCodePassedThrough : Obligations.TransportCodePassedThrough := by
  unfold Obligations.TransportCodePassedThrough
  refine ⟨?_, ?_, ?_, ?_, ?_⟩
  · intro s s' code hs hr h
    rw [exec_readTime_err hs hr] at h
    cases h
    exact ⟨rfl, rfl⟩
  · intro s s' t code hs ht hr h
    rw [exec_setTime_err hs (encodeTime_eq_packed ht) hr] at h
    cases h
    exact ⟨rfl, rfl⟩
  · intro s s' code hr h
    rw [exec_initSession_err hr] at h
    cases h
    exact ⟨rfl, rfl⟩
  · intro i s s' code h hres
    exact ⟨reply_eq_err_of_transport h hres, not_isCodec_of_transport h hres⟩
  · intro i s s' code code' hr h
    exact exec_failingWith code' hr h

end Sys2Proof.Machine
end

section
/-! The field translators: each one's answer as an equation in the digits of its byte or its value (R101 to
R113). -/

namespace Sys2Proof.Machine

/-! `bcd_to_bin` of a masked byte: the mask bounds the tens digit, and keeps or bounds the units digit. -/

theorem bcdToBin_eq (b : Byte) : bcdToBin b =
    if 9 < Claims.tens b ∨ 9 < Claims.units b then .error .malformedBcd else .ok (Claims.number b) := by
  simp only [bcdToBin, hiNibble_eq, loNibble_eq]
  rfl

theorem tens_and_le (b m : Byte) : Claims.tens (b &&& m) ≤ Claims.tens m := by
  simp only [Claims.tens, BitVec.toNat_and]
  exact Nat.div_le_div_right Nat.and_le_right

theorem units_and (b m : Byte) : Claims.units (b &&& m) = Claims.units b &&& Claims.units m := by
  simp only [Claims.units, BitVec.toNat_and]
  exact Nat.and_mod_two_pow (n := 4)

/-- A mask that keeps the low nibble: only the units digit can be malformed. -/
theorem bcdToBin_and_keepsUnits {m : Byte} (b : Byte) (ht : Claims.tens m ≤ 9) (hu : Claims.units m = 15) :
    bcdToBin (b &&& m) =
      if 9 < Claims.units b then .error .malformedBcd else .ok (Claims.number (b &&& m)) := by
  have htens : ¬ 9 < Claims.tens (b &&& m) := Nat.not_lt.2 ((tens_and_le b m).trans ht)
  have hunits : Claims.units (b &&& m) = Claims.units b := by
    rw [units_and, hu]
    exact (Nat.and_two_pow_sub_one_eq_mod _ 4).trans (Nat.mod_mod _ _)
  simp only [bcdToBin_eq, htens, hunits, false_or]

/-- A mask whose own nibbles are digits: nothing can be malformed. -/
theorem bcdToBin_and_of_digits {m : Byte} (b : Byte) (ht : Claims.tens m ≤ 9) (hu : Claims.units m ≤ 9) :
    bcdToBin (b &&& m) = .ok (Claims.number (b &&& m)) := by
  have hunits : Claims.units (b &&& m) ≤ Claims.units m := by
    rw [units_and]
    exact Nat.and_le_right
  exact (bcdToBin_eq _).trans (if_neg (by have := tens_and_le b m; omega))

/-! One equation per decode translator. -/

theorem decSeconds_eq (b : Byte) : decSeconds b =
    if 9 < Claims.units b then .error .malformedBcd else .ok (Claims.number (b &&& 0x7F#8)) :=
  bcdToBin_and_keepsUnits b (by decide) (by decide)

theorem decMinutes_eq (b : Byte) : decMinutes b =
    if 9 < Claims.units b then .error .malformedBcd else .ok (Claims.number (b &&& 0x7F#8)) :=
  bcdToBin_and_keepsUnits b (by decide) (by decide)

theorem mode12_iff_and_ne_zero (b : Byte) : mode12 b = true ↔ b &&& 0x40#8 ≠ 0 := bne_iff_ne

/-- R103: bit 6 chooses the mask. -/
theorem decHours_eq (b : Byte) : decHours b =
    if 9 < Claims.units b then .error .malformedBcd
    else if b &&& 0x40#8 ≠ 0 then .ok (Claims.number (b &&& 0x1F#8)) else .ok (Claims.number (b &&& 0x3F#8)) := by
  unfold decHours consumedHr
  by_cases hmode : mode12 b = true
  · rw [if_pos hmode, if_pos ((mode12_iff_and_ne_zero b).1 hmode)]
    exact bcdToBin_and_keepsUnits b (by decide) (by decide)
  · rw [if_neg hmode, if_neg (hmode ∘ (mode12_iff_and_ne_zero b).2)]
    exact bcdToBin_and_keepsUnits b (by decide) (by decide)

/-- R104: the mask leaves at most 7, so the weekday never fails. -/
theorem decWeekday_eq (b : Byte) : decWeekday b = .ok (Claims.number (b &&& 0x07#8) - 1) :=
  congrArg (addOffset (-1)) (bcdToBin_and_of_digits b (by decide) (by decide))

theorem decDayOfMonth_eq (b : Byte) : decDayOfMonth b =
    if 9 < Claims.units b then .error .malformedBcd else .ok (Claims.number (b &&& 0x3F#8)) :=
  bcdToBin_and_keepsUnits b (by decide) (by decide)

theorem addOffset_ite (k n : Int) (e : CodecError) (p : Prop) [Decidable p] :
    addOffset k (if p then .error e else .ok n) = if p then .error e else .ok (n + k) :=
  apply_ite (addOffset k) p (.error e) (.ok n)

theorem decMonth_eq (b : Byte) : decMonth b =
    if 9 < Claims.units b then .error .malformedBcd else .ok (Claims.number (b &&& 0x1F#8) - 1) :=
  (congrArg (addOffset (-1)) (bcdToBin_and_keepsUnits b (by decide) (by decide))).trans (addOffset_ite _ _ _ _)

/-- R107: the year is read unmasked, so either digit can be malformed. -/
theorem decYear_eq (b : Byte) : decYear b =
    if 9 < Claims.tens b ∨ 9 < Claims.units b then .error .malformedBcd else .ok (Claims.number b + 100) :=
  (congrArg (addOffset 100) (bcdToBin_eq b)).trans (addOffset_ite _ _ _ _)

/-- Settles O5: every translator but the year's reads a masked byte, whose tens digit the mask bounds; the mask
keeps the units digit, or for the weekday bounds it too. -/
theorem decodeTranslatorsByField : Obligations.DecodeTranslatorsByField := by
  unfold Obligations.DecodeTranslatorsByField
  exact ⟨decSeconds_eq, decMinutes_eq, decHours_eq, decWeekday_eq, decDayOfMonth_eq, decMonth_eq, decYear_eq⟩

/-! The flag bits of an encoded byte, by the size of its value. -/

theorem toNat_digits {n : Int} (h0 : 0 ≤ n) (h99 : n ≤ 99) :
    (Claims.digits n).toNat = 16 * (n.toNat / 10) + n.toNat % 10 :=
  (binToBcd_ok_iff.1 (binToBcd_eq_digits h0 h99)).2

/-- Bit 7 of a byte below 80 in BCD is clear. -/
theorem digits_bit7_clear {n : Int} (h0 : 0 ≤ n) (h79 : n ≤ 79) : (Claims.digits n).getLsbD 7 = false := by
  have hsize := toNat_digits h0 (by omega)
  exact Nat.testBit_lt_two_pow (by omega)

/-- Bits 7 and 6 of a byte below 40 in BCD are clear. -/
theorem digits_and_C0 {n : Int} (h0 : 0 ≤ n) (h39 : n ≤ 39) : Claims.digits n &&& 0xC0#8 = 0 := by
  have hsize := toNat_digits h0 (by omega)
  have hlow : Claims.digits n &&& 0x3F#8 = Claims.digits n := by
    apply BitVec.eq_of_toNat_eq
    rw [BitVec.toNat_and]
    exact (Nat.and_two_pow_sub_one_eq_mod _ 6).trans (Nat.mod_eq_of_lt (by omega))
  calc Claims.digits n &&& 0xC0#8
      = Claims.digits n &&& 0x3F#8 &&& 0xC0#8 := by rw [hlow]
    _ = Claims.digits n &&& (0x3F#8 &&& 0xC0#8) := BitVec.and_assoc _ _ _
    _ = 0 := BitVec.and_zero

/-- Below 40, bit 5 is the twenties digit. -/
theorem digits_bit5_iff {n : Int} (h0 : 0 ≤ n) (h39 : n ≤ 39) : (Claims.digits n).getLsbD 5 = true ↔ 20 ≤ n := by
  have hsize := toNat_digits h0 (by omega)
  have hbit : (Claims.digits n).getLsbD 5 = decide ((Claims.digits n).toNat / 2 ^ 5 % 2 = 1) :=
    Nat.testBit_eq_decide_div_mod_eq
  have hdigit : 32 ≤ (Claims.digits n).toNat ↔ 20 ≤ n := by omega
  rw [hbit, decide_eq_true_iff, ← hdigit]
  omega

/-- Settles O7: each encode translator is `bin_to_bcd` on a range inside [0,99], and SEC and HR stay below 80 and
40 there. -/
theorem encodeTranslatorsByField : Obligations.EncodeTranslatorsByField := by
  unfold Obligations.EncodeTranslatorsByField
  refine ⟨?seconds, ?minutes, ?hours, ?weekday, ?dayOfMonth, ?month⟩
  case seconds =>
    intro n h0 h59
    exact ⟨binToBcd_eq_digits h0 (by omega), digits_bit7_clear h0 (by omega)⟩
  case hours =>
    intro n h0 h23
    exact ⟨binToBcd_eq_digits h0 (by omega), digits_and_C0 h0 (by omega), digits_bit5_iff h0 (by omega)⟩
  case minutes | weekday | dayOfMonth | month =>
    intro n hlo hhi
    exact binToBcd_eq_digits (by omega) (by omega)

end Sys2Proof.Machine
end

section
/-! DECODE as one equivalence: it answers with a time exactly when every consumed nibble is a digit and the masked
digits' values are in range, and then with just those values (R120, R121, R123). -/

namespace Sys2Proof.Machine

/-- The mode bit as the model tests it and as the claims test it (R30, R65). -/
theorem mode12_eq_getLsbD (b : Byte) : mode12 b = b.getLsbD 6 := by
  have hmask : b &&& 0x40#8 = if b.getLsbD 6 then 0x40#8 else 0#8 := BitVec.and_twoPow b 6
  unfold mode12
  rw [hmask]
  cases b.getLsbD 6 <;> rfl

theorem consumedHr_eq_hourBits (b : Byte) : consumedHr b = Claims.hourBits b := by
  simp only [consumedHr, Claims.hourBits, mode12_eq_getLsbD]

theorem decHours_eq_hourBits (b : Byte) : decHours b =
    if 9 < Claims.units b then .error .malformedBcd else .ok (Claims.number (Claims.hourBits b)) := by
  rw [← consumedHr_eq_hourBits]
  unfold decHours consumedHr
  split <;> exact bcdToBin_and_keepsUnits b (by decide) (by decide)

/-- A translator that checks before it computes answers with a value only when the check passed. -/
theorem ite_error_eq_ok_iff {α : Type} {p : Prop} [Decidable p] {e : CodecError} {m n : α} :
    (if p then .error e else .ok m : Except CodecError α) = .ok n ↔ ¬ p ∧ n = m := by
  by_cases hp : p <;> simp [hp, eq_comm]

/-- Phase 1 computes with digits only, and its values are those of the masked digits (R120, R123). -/
theorem unpackImage_ok_iff_readOut {img : RegisterImage} {t : CanonicalTime} :
    unpackImage img = .ok t ↔ ¬ Claims.Malformed img ∧ t = Claims.readOut img := by
  obtain ⟨seconds, minutes, hours, weekday, dayOfMonth, month, year⟩ := t
  rw [unpackImage_ok_iff, decSeconds_eq, decMinutes_eq, decHours_eq_hourBits, decWeekday_eq, decDayOfMonth_eq,
    decMonth_eq, decYear_eq]
  simp only [ite_error_eq_ok_iff, Except.ok.injEq, Claims.Malformed, Claims.readOut, CanonicalTime.mk.injEq,
    not_or, eq_comm (b := weekday)]
  tauto

theorem decodeImage_ok_iff_readOut {img : RegisterImage} {t : CanonicalTime} :
    decodeImage img = .ok t ↔ ¬ Claims.Malformed img ∧ Claims.InRange t ∧ t = Claims.readOut img := by
  rw [decodeImage_ok_iff, unpackImage_ok_iff_readOut, valid_iff_inRange]
  tauto

/-- A time in the result of a codec operation is the codec's answer, with the two sentinels beside it (R121). -/
theorem codecResult_timeValue_eq_time_iff {r : Except CodecError CanonicalTime} {t : CanonicalTime}
    {dayOfYear isDst : Int} :
    codecResult timeValue r = .ok (.time t dayOfYear isDst) ↔ r = .ok t ∧ dayOfYear = -1 ∧ isDst = -1 := by
  cases r with
  | error e => simp [codecResult]
  | ok t' => simp [codecResult, timeValue, sentinel, eq_comm]

/-- A codec error puts no value on the ports of DECODE (R73). -/
theorem State.finish_codecErr_ports (s : State) (e : CodecError) :
    (s.finish (.codecErr e)).dayOfYearOut = none ∧ (s.finish (.codecErr e)).isDstOut = none ∧
      (s.finish (.codecErr e)).timeOut = none := ⟨rfl, rfl, rfl⟩

/-- Settles O11: both clauses read `decodeImage_ok_iff_readOut`, the first from left to right, the second to see
that a malformed or out-of-range image leaves only the error. -/
theorem decodeNeverRepairs : Obligations.DecodeNeverRepairs := by
  unfold Obligations.DecodeNeverRepairs
  refine ⟨?time, ?noTime⟩
  case time =>
    intro img s s' t dayOfYear isDst h hres
    rw [exec_decode] at h
    cases h
    obtain ⟨hdec, hday, hdst⟩ := codecResult_timeValue_eq_time_iff.1 (Option.some.inj hres)
    obtain ⟨hdigits, hrange, hvalue⟩ := decodeImage_ok_iff_readOut.1 hdec
    exact ⟨hdigits, hrange, hvalue, hday, hdst⟩
  case noTime =>
    intro img s hbad
    rw [exec_decode]
    cases hdec : decodeImage img with
    | error e => exact ⟨_, e, rfl, rfl, s.finish_codecErr_ports e⟩
    | ok t =>
      obtain ⟨hdigits, hrange, rfl⟩ := decodeImage_ok_iff_readOut.1 hdec
      exact absurd hbad (not_or.2 ⟨hdigits, not_not.2 hrange⟩)

end Sys2Proof.Machine
end

section
/-! Where MalformedBcd comes from: a nibble above 9 that BCD2BIN, DECODE or READ_TIME reads, and nothing that
encodes (R162). -/

namespace Sys2Proof.Machine

/-! The codec's three functions: which of them answers MalformedBcd, and on what. -/

theorem bcdToBin_eq_malformedBcd_iff {b : Byte} :
    bcdToBin b = .error .malformedBcd ↔ 9 < Claims.tens b ∨ 9 < Claims.units b := by
  rw [bcdToBin_eq]
  split
  case isTrue hbad => exact iff_of_true rfl hbad
  case isFalse hdigits => exact iff_of_false nofun hdigits

/-- On digits only, phase 1 has an answer, and the range check's error is another one (R120). -/
theorem malformed_of_decodeImage {img : RegisterImage} (h : decodeImage img = .error .malformedBcd) :
    Claims.Malformed img := by
  by_contra hdigits
  have hunpack : unpackImage img = .ok (Claims.readOut img) := unpackImage_ok_iff_readOut.2 ⟨hdigits, rfl⟩
  simp only [decodeImage, hunpack] at h
  split at h <;> cases h

/-- ENCODE's one error (R124): a valid time packs, so no other error can come from the digits. -/
theorem encodeTime_error {t : CanonicalTime} {e : CodecError} (h : encodeTime t = .error e) :
    e = .fieldOutOfRange := by
  by_cases hrange : Claims.InRange t
  · rw [encodeTime_eq_packed hrange] at h
    cases h
  · rw [encodeTime, if_neg (hrange ∘ valid_iff_inRange.1)] at h
    cases h
    rfl

theorem binToBcd_ne_malformedBcd (n : Int) : binToBcd n ≠ .error .malformedBcd :=
  fun h => nomatch (binToBcd_error_iff.1 h).2

theorem encodeTime_ne_malformedBcd (t : CanonicalTime) : encodeTime t ≠ .error .malformedBcd :=
  fun h => nomatch encodeTime_error h

/-! A codec error in a result is the codec's own: bare after a codec operation, wrapped after a session operation
(R160). -/

theorem codecResult_eq_codecErr_iff {α : Type} {value : α → Value} {r : Except CodecError α} {e : CodecError} :
    codecResult value r = .codecErr e ↔ r = .error e := by
  cases r <;> simp [codecResult]

theorem sessionResult_eq_codec_iff {α : Type} {value : α → Value} {r : Except CodecError α} {e : CodecError} :
    sessionResult value r = .sessionErr (.codec e) ↔ r = .error e := by
  cases r <;> simp [sessionResult]

theorem sessionResult_ne_codecErr {α : Type} (value : α → Value) (r : Except CodecError α) (e : CodecError) :
    sessionResult value r ≠ .codecErr e := by
  cases r <;> simp [sessionResult]

theorem isCodec_of_codecErr {i : Instr} {s s' : State} {e : CodecError} (h : exec i s = .next s')
    (hres : s'.result = some (.codecErr e)) : Claims.IsCodec i := by
  cases i with
  | bcd2bin _ | bin2bcd _ | decode _ | encode _ => trivial
  | readTime =>
    obtain ⟨-, rfl⟩ | ⟨-, -, rfl⟩ | ⟨code, -, -, rfl⟩ := execReadTime_next h
    · simp at hres
    · exact absurd (Option.some.inj hres) (sessionResult_ne_codecErr _ _ _)
    · simp at hres
  | setTime t =>
    obtain ⟨-, rfl⟩ | ⟨e', -, -, rfl⟩ | ⟨img, -, -, -, rfl⟩ | ⟨img, code, -, -, -, rfl⟩ := execSetTime_next h
    all_goals simp at hres
  | initSession =>
    obtain ⟨-, rfl⟩ | ⟨code, -, rfl⟩ := bringUp_next h
    all_goals simp at hres

theorem not_isCodec_of_sessionErr {i : Instr} {s s' : State} {e : SessionError} (h : exec i s = .next s')
    (hres : s'.result = some (.sessionErr e)) : ¬ Claims.IsCodec i := by
  intro hi
  obtain ⟨r, hr, hexec⟩ := exec_eq_finish_of_isCodec hi
  rw [hexec s] at h
  cases h
  exact hr e (Option.some.inj hres)

/-! The two forms of the error, each with its operations and its cause. -/

theorem cause_of_malformedBcd {i : Instr} {s s' : State} (h : exec i s = .next s')
    (hres : s'.result = some (.codecErr .malformedBcd)) :
    (∃ b, i = .bcd2bin b ∧ (9 < Claims.tens b ∨ 9 < Claims.units b)) ∨
      (∃ img, i = .decode img ∧ Claims.Malformed img) := by
  have hcodec := isCodec_of_codecErr h hres
  cases i with
  | bcd2bin b =>
    cases h
    exact .inl ⟨b, rfl, bcdToBin_eq_malformedBcd_iff.1 (codecResult_eq_codecErr_iff.1 (Option.some.inj hres))⟩
  | bin2bcd n =>
    cases h
    exact absurd (codecResult_eq_codecErr_iff.1 (Option.some.inj hres)) (binToBcd_ne_malformedBcd n)
  | decode img =>
    cases h
    exact .inr ⟨img, rfl, malformed_of_decodeImage (codecResult_eq_codecErr_iff.1 (Option.some.inj hres))⟩
  | encode t =>
    cases h
    exact absurd (codecResult_eq_codecErr_iff.1 (Option.some.inj hres)) (encodeTime_ne_malformedBcd t)
  | readTime | setTime _ | initSession => exact False.elim hcodec

theorem cause_of_codec_malformedBcd {i : Instr} {s s' : State} (h : exec i s = .next s')
    (hres : s'.result = some (.sessionErr (.codec .malformedBcd))) :
    i = .readTime ∧ Claims.Malformed (imageHeld s) := by
  have hsession := not_isCodec_of_sessionErr h hres
  cases i with
  | bcd2bin _ | bin2bcd _ | decode _ | encode _ => exact absurd trivial hsession
  | readTime =>
    obtain ⟨-, rfl⟩ | ⟨-, -, rfl⟩ | ⟨code, -, -, rfl⟩ := execReadTime_next h
    · simp at hres
    · exact ⟨rfl, malformed_of_decodeImage (sessionResult_eq_codec_iff.1 (Option.some.inj hres))⟩
    · simp at hres
  | setTime t =>
    obtain ⟨-, rfl⟩ | ⟨e, -, he, rfl⟩ | ⟨img, -, -, -, rfl⟩ | ⟨img, code, -, -, -, rfl⟩ := execSetTime_next h
    · simp at hres
    · cases hres
      exact absurd he (encodeTime_ne_malformedBcd t)
    · simp at hres
    · simp at hres
  | initSession =>
    obtain ⟨-, rfl⟩ | ⟨code, -, rfl⟩ := bringUp_next h
    all_goals simp at hres

/-! One malformed image, as an operand and on the chip. -/

/-- An image whose seconds have the units nibble 0xA. -/
def malformedSecondsImage : RegisterImage := ⟨0x0A#8, 0x00#8, 0x00#8, 0x01#8, 0x01#8, 0x01#8, 0x00#8⟩

/-- A block in `Ready` that faces a chip holding `img`, on a bus that answers. -/
def readyHolding (img : RegisterImage) : State :=
  { State.reset with session := .ready, bus := ⟨Claims.driftTo img, .ok⟩ }

theorem imageHeld_readyHolding (img : RegisterImage) : imageHeld (readyHolding img) = img := rfl

theorem decodeImage_malformedSecondsImage : decodeImage malformedSecondsImage = .error .malformedBcd := rfl

theorem exec_readTime_ok {s : State} (hs : s.session = .ready) (hr : s.bus.reply = .ok) :
    exec .readTime s = .next (((s.afterCall (.bulkRead imageOffset imageCount) s.chipNow).freshFree).finish
      (sessionResult timeValue (decodeImage (imageHeld s)))) := by
  simp [exec, execReadTime, whenReady, hs, memRead_ok image_in_space hr]

/-- Settles O35: a bare codec error ends a codec operation only and a wrapped one a session operation only; of
their functions only `bcd_to_bin` and `decode` answer MalformedBcd, on a nibble above 9. -/
theorem malformedBcdRaisedByReaders : Obligations.MalformedBcdRaisedByReaders := by
  unfold Obligations.MalformedBcdRaisedByReaders
  refine ⟨?bare, ?wrapped, ?bcd2bin, ?decode, ?readTime⟩
  case bare =>
    intro i s s' h hres
    exact cause_of_malformedBcd h hres
  case wrapped =>
    intro i s s' h hres
    exact cause_of_codec_malformedBcd h hres
  case bcd2bin =>
    intro b s s' hbad h
    cases h
    exact congrArg some (codecResult_eq_codecErr_iff.2 (bcdToBin_eq_malformedBcd_iff.2 hbad))
  case decode =>
    exact ⟨malformedSecondsImage, State.reset, _, exec_decode _ _,
      congrArg some (codecResult_eq_codecErr_iff.2 decodeImage_malformedSecondsImage)⟩
  case readTime =>
    refine ⟨readyHolding malformedSecondsImage, _, exec_readTime_ok rfl rfl, ?_⟩
    rw [imageHeld_readyHolding]
    exact congrArg some (sessionResult_eq_codec_iff.2 decodeImage_malformedSecondsImage)

end Sys2Proof.Machine
end

section
/-! The command ports: an operation stands on them without loss, and what stands on them is read back as it is
(R61, R67, R69 to R71). -/

namespace Sys2Proof

open Machine

/-! An image on its 56-bit port (R61). -/

/-- Bit `j` of byte `i` of an image stands at bit `8 * i + j` of its port. -/
theorem RegisterImage.getLsbD_toPort {img : RegisterImage} {i j : Nat} {b : Byte}
    (hb : (imageBytes img)[i]? = some b) (hj : j < 8) : img.toPort.getLsbD (8 * i + j) = b.getLsbD j := by
  have hi : i < 7 := (List.getElem?_eq_some_iff.1 hb).1
  simp only [RegisterImage.toPort, BitVec.getLsbD_append]
  interval_cases i <;> cases hb <;> simp +arith [hj, Nat.not_lt.2]

theorem ImageWord.getLsbD_byteAt (w : ImageWord) (i : Nat) {j : Nat} (hj : j < 8) :
    (ImageWord.byteAt w i).getLsbD j = w.getLsbD (8 * i + j) := by
  simp [ImageWord.byteAt, hj]

theorem RegisterImage.byteAt_toPort {img : RegisterImage} {i : Nat} {b : Byte}
    (hb : (imageBytes img)[i]? = some b) : ImageWord.byteAt img.toPort i = b :=
  BitVec.eq_of_getLsbD_eq fun j hj => by rw [ImageWord.getLsbD_byteAt _ _ hj, getLsbD_toPort hb hj]

@[simp] theorem RegisterImage.ofPort_toPort (img : RegisterImage) : RegisterImage.ofPort img.toPort = img := by
  obtain ⟨sec, min, hr, day, date, mon, yr⟩ := img
  rw [RegisterImage.ofPort, RegisterImage.mk.injEq]
  exact ⟨byteAt_toPort rfl, byteAt_toPort rfl, byteAt_toPort rfl, byteAt_toPort rfl, byteAt_toPort rfl,
    byteAt_toPort rfl, byteAt_toPort rfl⟩

theorem RegisterImage.imageBytes_ofPort (w : ImageWord) {i : Nat} (hi : i < 7) :
    (imageBytes (.ofPort w))[i]? = some (ImageWord.byteAt w i) := by
  interval_cases i <;> rfl

@[simp] theorem RegisterImage.toPort_ofPort (w : ImageWord) : (RegisterImage.ofPort w).toPort = w := by
  refine BitVec.eq_of_getLsbD_eq fun k hk => ?_
  have hsplit : 8 * (k / 8) + k % 8 = k := Nat.div_add_mod k 8
  have hj : k % 8 < 8 := Nat.mod_lt k (by decide)
  have hbit := getLsbD_toPort (imageBytes_ofPort w (i := k / 8) (by omega)) hj
  rwa [ImageWord.getLsbD_byteAt w _ hj, hsplit] at hbit

/-- Settles O49: the concatenation is read off bit by bit, and both round trips follow from that one fact. -/
theorem imagePortBitLayout : Obligations.ImagePortBitLayout := by
  unfold Obligations.ImagePortBitLayout
  exact ⟨fun _ _ _ _ hb hj => RegisterImage.getLsbD_toPort hb hj, RegisterImage.ofPort_toPort,
    RegisterImage.toPort_ofPort⟩

/-! Integers and times on their ports (R67). -/

theorem toInt_fieldWord {n : Int} (h : FitsField n) : (fieldWord n).toInt = n :=
  BitVec.toInt_ofInt_eq_self (by decide) h.1 h.2

@[simp] theorem fieldWord_toInt (w : FieldWord) : fieldWord w.toInt = w := BitVec.ofInt_toInt

theorem fitsField_toInt (w : FieldWord) : FitsField w.toInt := ⟨BitVec.le_toInt w, BitVec.toInt_lt⟩

theorem CanonicalTime.ofPort_toPort {t : CanonicalTime} (h : t.FitsPorts) : CanonicalTime.ofPort t.toPort = t := by
  obtain ⟨hsec, hmin, hhr, hday, hdate, hmon, hyr⟩ := h
  simp only [CanonicalTime.ofPort, CanonicalTime.toPort, toInt_fieldWord hsec, toInt_fieldWord hmin,
    toInt_fieldWord hhr, toInt_fieldWord hday, toInt_fieldWord hdate, toInt_fieldWord hmon, toInt_fieldWord hyr]

@[simp] theorem CanonicalTime.toPort_ofPort (p : TimePort) : (CanonicalTime.ofPort p).toPort = p := by
  simp only [CanonicalTime.ofPort, CanonicalTime.toPort, fieldWord_toInt]

theorem CanonicalTime.fitsPorts_ofPort (p : TimePort) : (CanonicalTime.ofPort p).FitsPorts :=
  ⟨fitsField_toInt _, fitsField_toInt _, fitsField_toInt _, fitsField_toInt _, fitsField_toInt _, fitsField_toInt _,
    fitsField_toInt _⟩

/-! The decoder, by the value of `op`. -/

/-- All the decoder can answer with success (R69, R70): `op` chooses the operation, which takes its own port. -/
theorem decode_ok_cases {c : Command} {i : Instr} (h : decode c = .ok i) :
    (c.op = 0 ∧ i = .bcd2bin c.byteIn) ∨ (c.op = 1 ∧ i = .bin2bcd c.nIn.toInt) ∨
    (c.op = 2 ∧ i = .decode (.ofPort c.imageIn)) ∨ (c.op = 3 ∧ i = .encode (.ofPort c.timeIn)) ∨
    (c.op = 4 ∧ i = .readTime) ∨ (c.op = 5 ∧ i = .setTime (.ofPort c.timeIn)) ∨
    (c.op = 6 ∧ i = .initSession) := by
  unfold decode at h
  split at h <;> cases h <;> rename_i hop <;> simp [← BitVec.toNat_inj, hop]

theorem decode_reservedOp {c : Command} (h : c.op = 7) : decode c = .error .reservedOp := by
  simp [decode, h]

/-- Settles O47: the decoder reads the code that `encode` drives and converts the operand back from its port. -/
theorem decodeOfEncodedOperation : Obligations.DecodeOfEncodedOperation := by
  unfold Obligations.DecodeOfEncodedOperation
  intro i hi
  cases i with
  | bcd2bin _ | readTime | initSession => rfl
  | bin2bcd n => exact congrArg (Except.ok ∘ Instr.bin2bcd) (toInt_fieldWord (of_decide_eq_true hi))
  | decode img => exact congrArg (Except.ok ∘ Instr.decode) img.ofPort_toPort
  | encode t => exact congrArg (Except.ok ∘ Instr.encode) (CanonicalTime.ofPort_toPort (of_decide_eq_true hi))
  | setTime t => exact congrArg (Except.ok ∘ Instr.setTime) (CanonicalTime.ofPort_toPort (of_decide_eq_true hi))

theorem wellFormed_of_decode {c : Command} {i : Instr} (h : decode c = .ok i) : i.wellFormed = true := by
  obtain ⟨-, rfl⟩ | ⟨-, rfl⟩ | ⟨-, rfl⟩ | ⟨-, rfl⟩ | ⟨-, rfl⟩ | ⟨-, rfl⟩ | ⟨-, rfl⟩ := decode_ok_cases h
  · rfl
  · exact decide_eq_true (fitsField_toInt c.nIn)
  · rfl
  · exact decide_eq_true (CanonicalTime.fitsPorts_ofPort c.timeIn)
  · rfl
  · exact decide_eq_true (CanonicalTime.fitsPorts_ofPort c.timeIn)
  · rfl

/-- Settles O48: in each of the decoder's seven answers the operand's round trip gives the port back. -/
theorem decodedPortsAreCanonical : Obligations.DecodedPortsAreCanonical := by
  unfold Obligations.DecodedPortsAreCanonical
  intro c i h
  refine ⟨wellFormed_of_decode h, ?_⟩
  obtain ⟨hop, rfl⟩ | ⟨hop, rfl⟩ | ⟨hop, rfl⟩ | ⟨hop, rfl⟩ | ⟨hop, rfl⟩ | ⟨hop, rfl⟩ | ⟨hop, rfl⟩ :=
    decode_ok_cases h
  all_goals simp [hop, encode, Command.ofOp]

/-- Settles O46: each word and each command is decoded by evaluation. -/
theorem operationMapWords : Obligations.OperationMapWords := by
  unfold Obligations.OperationMapWords
  decide

end Sys2Proof
end

section
/-! The digits of a BCD byte: reading and writing them are inverse, and writing keeps the order (R91, R92). -/

namespace Sys2Proof.Machine

/-! The digits of a byte that was written, and the byte of the digits that were read. -/

theorem tens_digits {n : Int} (h0 : 0 ≤ n) (h99 : n ≤ 99) : Claims.tens (Claims.digits n) = n.toNat / 10 := by
  rw [Claims.tens, toNat_digits h0 h99]
  omega

theorem units_digits {n : Int} (h0 : 0 ≤ n) (h99 : n ≤ 99) : Claims.units (Claims.digits n) = n.toNat % 10 := by
  rw [Claims.units, toNat_digits h0 h99]
  omega

theorem number_digits {n : Int} (h0 : 0 ≤ n) (h99 : n ≤ 99) : Claims.number (Claims.digits n) = n := by
  rw [Claims.number, tens_digits h0 h99, units_digits h0 h99]
  omega

theorem number_nonneg (b : Byte) : 0 ≤ Claims.number b := by
  unfold Claims.number
  omega

/-- A byte with bounded digits has a bounded number. -/
theorem number_le {b : Byte} {k u : Nat} (ht : Claims.tens b ≤ k) (hu : Claims.units b ≤ u) :
    Claims.number b ≤ 10 * k + u := by
  unfold Claims.number
  omega

theorem digits_number {b : Byte} (ht : Claims.tens b ≤ 9) (hu : Claims.units b ≤ 9) :
    Claims.digits (Claims.number b) = b := by
  apply BitVec.eq_of_toNat_eq
  rw [toNat_digits (number_nonneg b) (number_le ht hu)]
  unfold Claims.number Claims.tens Claims.units at *
  omega

theorem bcdByte_iff {b : Byte} : BcdByte b ↔ Claims.tens b ≤ 9 ∧ Claims.units b ≤ 9 := by
  rw [BcdByte, hiNibble_eq, loNibble_eq, Claims.tens, Claims.units]

theorem bcdByte_digits {n : Int} (h0 : 0 ≤ n) (h99 : n ≤ 99) : BcdByte (Claims.digits n) := by
  rw [bcdByte_iff, tens_digits h0 h99, units_digits h0 h99]
  omega

/-- All `bcd_to_bin` can answer with success, in the digits of the byte. -/
theorem bcdToBin_ok_iff_number {b : Byte} {n : Int} :
    bcdToBin b = .ok n ↔ (Claims.tens b ≤ 9 ∧ Claims.units b ≤ 9) ∧ n = Claims.number b := by
  rw [bcdToBin_ok_iff, hiNibble_eq, loNibble_eq]
  rfl

/-- All `bin_to_bcd` can answer with success, as the byte of the digits. -/
theorem binToBcd_ok_iff_digits {n : Int} {b : Byte} :
    binToBcd n = .ok b ↔ (0 ≤ n ∧ n ≤ 99) ∧ b = Claims.digits n := by
  rw [binToBcd_ok_iff]
  refine and_congr_right fun ⟨h0, h99⟩ => ?_
  rw [← BitVec.toNat_inj, toNat_digits h0 h99]

theorem bcdToBin_digits {n : Int} (h0 : 0 ≤ n) (h99 : n ≤ 99) : bcdToBin (Claims.digits n) = .ok n :=
  bcdToBin_ok_iff_number.2 ⟨bcdByte_iff.1 (bcdByte_digits h0 h99), (number_digits h0 h99).symm⟩

theorem range_of_bcdToBin {b : Byte} {n : Int} (h : bcdToBin b = .ok n) : 0 ≤ n ∧ n ≤ 99 := by
  obtain ⟨⟨ht, hu⟩, rfl⟩ := bcdToBin_ok_iff_number.1 h
  exact ⟨number_nonneg b, number_le ht hu⟩

theorem binToBcd_of_bcdToBin {b : Byte} {n : Int} (h : bcdToBin b = .ok n) : binToBcd n = .ok b := by
  obtain ⟨⟨ht, hu⟩, rfl⟩ := bcdToBin_ok_iff_number.1 h
  exact binToBcd_ok_iff_digits.2 ⟨range_of_bcdToBin h, (digits_number ht hu).symm⟩

/-- Settles O3: writing and then reading the digits gives the number, reading and then writing them the byte. -/
theorem bcdConversionsInverse : Obligations.BcdConversionsInverse := by
  unfold Obligations.BcdConversionsInverse
  refine ⟨?_, ?_⟩
  · intro n h0 h99
    exact ⟨_, binToBcd_eq_digits h0 h99, bcdToBin_digits h0 h99⟩
  · intro b n h
    exact ⟨(range_of_bcdToBin h).1, (range_of_bcdToBin h).2, binToBcd_of_bcdToBin h⟩

theorem binToBcd_strictMono {n m : Int} {b c : Byte} (hnm : n < m) (hb : binToBcd n = .ok b)
    (hc : binToBcd m = .ok c) : b.toNat < c.toNat := by
  obtain ⟨hn, hb⟩ := binToBcd_ok_iff.1 hb
  obtain ⟨hm, hc⟩ := binToBcd_ok_iff.1 hc
  omega

/-- Settles O4: a larger number has a larger tens digit, or the same one and a larger units digit. -/
theorem binToBcdIncreasing : Obligations.BinToBcdIncreasing := by
  unfold Obligations.BinToBcdIncreasing
  intro n m b c
  exact binToBcd_strictMono

/-! The primitives as operations. -/

theorem tens_consumedHr_le_three (b : Byte) : Claims.tens (consumedHr b) ≤ 3 := by
  unfold consumedHr
  split
  · exact (tens_and_le b _).trans (by decide)
  · exact (tens_and_le b _).trans (by decide)

/-- Settles O1: BCD2BIN finishes with `bcd_to_bin` of its byte; a mask below 0x80 bounds the tens digit by 7. -/
theorem bcd2binReadsTwoDigits : Obligations.Bcd2binReadsTwoDigits := by
  unfold Obligations.Bcd2binReadsTwoDigits
  refine ⟨?digits, ?malformed, ?op, ?masked⟩
  case digits =>
    intro b s ht hu
    have hok : bcdToBin b = .ok (Claims.number b) := bcdToBin_ok_iff_number.2 ⟨⟨ht, hu⟩, rfl⟩
    exact ⟨by rw [exec_bcd2bin, hok]; rfl, range_of_bcdToBin hok⟩
  case malformed =>
    intro b s hbad
    rw [exec_bcd2bin, bcdToBin_eq_malformedBcd_iff.2 hbad]
    rfl
  case op => exact fun _ => rfl
  case masked =>
    intro b
    exact ⟨(tens_and_le b _).trans (by decide), (tens_and_le b _).trans (by decide),
      (tens_consumedHr_le_three b).trans (by decide), (tens_and_le b _).trans (by decide),
      (tens_and_le b _).trans (by decide), (tens_and_le b _).trans (by decide)⟩

/-- Settles O2: BIN2BCD finishes with `bin_to_bcd` of its integer, whose range is [0,99]; a time in range packs. -/
theorem bin2bcdWritesTwoDigits : Obligations.Bin2bcdWritesTwoDigits := by
  unfold Obligations.Bin2bcdWritesTwoDigits
  refine ⟨?inside, ?outside, ?packs, ?op⟩
  case inside =>
    intro n s h0 h99
    exact ⟨by rw [exec_bin2bcd, binToBcd_eq_digits h0 h99]; rfl, tens_digits h0 h99, units_digits h0 h99⟩
  case outside =>
    intro n s hout
    rw [exec_bin2bcd, binToBcd_error_iff.2 ⟨hout, rfl⟩]
    rfl
  case packs => exact fun t ht => ⟨_, packTime_eq_packed ht⟩
  case op => exact fun _ => rfl

/-! The translators' ranges (section 5 of the translators' rules). -/

/-- The value of a masked byte that converts lies below the mask's tens digit and 9. -/
theorem range_of_bcdToBin_and {b m : Byte} {n : Int} {k : Nat} (hm : Claims.tens m ≤ k)
    (h : bcdToBin (b &&& m) = .ok n) : 0 ≤ n ∧ n ≤ 10 * k + 9 := by
  obtain ⟨⟨-, hu⟩, rfl⟩ := bcdToBin_ok_iff_number.1 h
  exact ⟨number_nonneg _, number_le ((tens_and_le b m).trans hm) hu⟩

theorem units_and_le (b m : Byte) : Claims.units (b &&& m) ≤ Claims.units m := by
  rw [units_and]
  exact Nat.and_le_right

theorem decHours_range {b : Byte} {n : Int} (h : decHours b = .ok n) :
    0 ≤ n ∧ (b.getLsbD 6 = true → n ≤ 19) ∧ (b.getLsbD 6 = false → n ≤ 39) := by
  rw [decHours, consumedHr_eq_hourBits, Claims.hourBits] at h
  cases hmode : b.getLsbD 6 with
  | true =>
    rw [hmode] at h
    obtain ⟨hlo, hhi⟩ := range_of_bcdToBin_and (k := 1) (by decide) h
    exact ⟨hlo, fun _ => hhi, nofun⟩
  | false =>
    rw [hmode] at h
    obtain ⟨hlo, hhi⟩ := range_of_bcdToBin_and (k := 3) (by decide) h
    exact ⟨hlo, nofun, fun _ => hhi⟩

/-- Settles O6: each translator converts a masked byte, whose tens digit is the mask's at most, and adds its
constant. -/
theorem decodeTranslatorRanges : Obligations.DecodeTranslatorRanges := by
  unfold Obligations.DecodeTranslatorRanges
  refine ⟨?seconds, ?minutes, ?hours, ?weekday, ?dayOfMonth, ?month, ?year⟩
  case seconds | minutes => exact fun b n h => range_of_bcdToBin_and (k := 7) (by decide) h
  case hours => exact fun b n h => decHours_range h
  case weekday =>
    intro b n h
    obtain rfl := Except.ok.inj ((decWeekday_eq b).symm.trans h)
    have hlo := number_nonneg (b &&& 0x07#8)
    have hhi : Claims.number (b &&& 0x07#8) ≤ 7 :=
      number_le (k := 0) (u := 7) (tens_and_le b _) (units_and_le b _)
    omega
  case dayOfMonth => exact fun b n h => range_of_bcdToBin_and (k := 3) (by decide) h
  case month =>
    intro b n h
    have hrange := range_of_bcdToBin_and (k := 1) (by decide) (addOffset_ok_iff.1 h)
    omega
  case year =>
    intro b n h
    have hrange := range_of_bcdToBin (addOffset_ok_iff.1 h)
    omega

/-- Settles O8: the year's two digits are written and read back, the century taken off and put on again. -/
theorem yearTranslatorsInverse : Obligations.YearTranslatorsInverse := by
  unfold Obligations.YearTranslatorsInverse
  refine ⟨?_, ?_⟩
  · intro n h100 h199
    have hcentury : n % 100 = n - 100 := by omega
    refine ⟨?_, addOffset_ok_iff.2 (bcdToBin_digits (by omega) (by omega))⟩
    rw [encYear, hcentury, binToBcd_eq_digits (by omega) (by omega)]
  · intro b n h
    have hb : bcdToBin b = .ok (n - 100) := addOffset_ok_iff.1 h
    have hrange := range_of_bcdToBin hb
    have hcentury : n % 100 = n - 100 := by omega
    rw [encYear, hcentury, binToBcd_of_bcdToBin hb]

end Sys2Proof.Machine
end

section
/-! The image of a valid time: its bytes are clean, DECODE reads the time back from it, and it keeps the order of
the fields (R115, R124 to R128). -/

namespace Sys2Proof.Machine

/-! A byte small enough loses nothing to a mask. -/

/-- A mask of `k` low bits leaves a byte below `2 ^ k` alone. -/
theorem and_lowMask_of_lt {b m : Byte} {k : Nat} (hm : m.toNat = 2 ^ k - 1) (hb : b.toNat < 2 ^ k) : b &&& m = b := by
  apply BitVec.eq_of_toNat_eq
  rw [BitVec.toNat_and, hm, Nat.and_two_pow_sub_one_eq_mod, Nat.mod_eq_of_lt hb]

/-- A byte that a mask leaves alone has no bit outside the mask. -/
theorem and_eq_zero_of_and_eq_self {b keep drop : Byte} (hb : b &&& keep = b) (hmasks : keep &&& drop = 0) :
    b &&& drop = 0 := by
  rw [← hb, BitVec.and_assoc, hmasks]
  exact BitVec.and_zero

theorem digits_and_7F {n : Int} (h0 : 0 ≤ n) (h79 : n ≤ 79) : Claims.digits n &&& 0x7F#8 = Claims.digits n :=
  and_lowMask_of_lt (k := 7) (by decide) (by rw [toNat_digits h0 (by omega)]; omega)

theorem digits_and_3F {n : Int} (h0 : 0 ≤ n) (h39 : n ≤ 39) : Claims.digits n &&& 0x3F#8 = Claims.digits n :=
  and_lowMask_of_lt (k := 6) (by decide) (by rw [toNat_digits h0 (by omega)]; omega)

theorem digits_and_1F {n : Int} (h0 : 0 ≤ n) (h19 : n ≤ 19) : Claims.digits n &&& 0x1F#8 = Claims.digits n :=
  and_lowMask_of_lt (k := 5) (by decide) (by rw [toNat_digits h0 (by omega)]; omega)

theorem digits_and_07 {n : Int} (h0 : 0 ≤ n) (h7 : n ≤ 7) : Claims.digits n &&& 0x07#8 = Claims.digits n :=
  and_lowMask_of_lt (k := 3) (by decide) (by rw [toNat_digits h0 (by omega)]; omega)

theorem digits_bit6_clear {n : Int} (h0 : 0 ≤ n) (h39 : n ≤ 39) : (Claims.digits n).getLsbD 6 = false := by
  have hsize := toNat_digits h0 (by omega)
  exact Nat.testBit_lt_two_pow (by omega)

/-- An encoded hour is read in 24-hour mode, whole. -/
theorem hourBits_digits {n : Int} (h0 : 0 ≤ n) (h39 : n ≤ 39) :
    Claims.hourBits (Claims.digits n) = Claims.digits n := by
  rw [Claims.hourBits, digits_bit6_clear h0 h39]
  exact digits_and_3F h0 h39

/-! ENCODE's two answers (R124). -/

theorem encodeTime_eq_error {t : CanonicalTime} (h : ¬ Claims.InRange t) :
    encodeTime t = .error .fieldOutOfRange :=
  if_neg (h ∘ valid_iff_inRange.1)

theorem encodeTime_ok_iff_packed {t : CanonicalTime} {img : RegisterImage} :
    encodeTime t = .ok img ↔ Claims.InRange t ∧ img = Claims.packed t := by
  by_cases ht : Claims.InRange t
  · simp [encodeTime_eq_packed ht, ht, eq_comm]
  · simp [encodeTime_eq_error ht, ht]

/-- Settles O9: the check is the conjunction of the ranges, ENCODE starts with it and DECODE ends with it. -/
theorem validIsTheSevenRanges : Obligations.ValidIsTheSevenRanges := by
  unfold Obligations.ValidIsTheSevenRanges
  exact ⟨fun _ => valid_iff_inRange, fun _ => encodeTime_eq_error,
    fun _ _ h => valid_iff_inRange.1 (decodeImage_ok_iff.1 h).2⟩

/-- Settles O12: ENCODE finishes with `encode` of its time, which packs the digits of a time in range. -/
theorem encodePacksTime : Obligations.EncodePacksTime := by
  unfold Obligations.EncodePacksTime
  refine ⟨?inside, ?outside, fun _ => rfl⟩
  case inside =>
    intro t s ht
    rw [exec_encode, encodeTime_eq_packed ht]
    rfl
  case outside =>
    intro t s ht
    rw [exec_encode, encodeTime_eq_error ht]
    rfl

/-! The image of a time in range. -/

theorem cleanImage_packed {t : CanonicalTime} (h : Claims.InRange t) : CleanImage (Claims.packed t) := by
  obtain ⟨hsec, hsec', hmin, hmin', hhr, hhr', hday, hday', hdate, hdate', hmon, hmon', -, -⟩ := h
  refine ⟨⟨bcdByte_digits hsec (by omega), bcdByte_digits hmin (by omega), bcdByte_digits hhr (by omega),
    bcdByte_digits (by omega) (by omega), bcdByte_digits (by omega) (by omega),
    bcdByte_digits (by omega) (by omega), bcdByte_digits (by omega) (by omega)⟩, ?sec, ?min, ?hr, ?day, ?date, ?mon⟩
  case sec => exact and_eq_zero_of_and_eq_self (digits_and_7F hsec (by omega)) (by decide)
  case min => exact and_eq_zero_of_and_eq_self (digits_and_7F hmin (by omega)) (by decide)
  case hr => exact digits_and_C0 hhr (by omega)
  case day => exact and_eq_zero_of_and_eq_self (digits_and_07 (by omega) (by omega)) (by decide)
  case date => exact digits_and_C0 (by omega) (by omega)
  case mon => exact and_eq_zero_of_and_eq_self (digits_and_1F (by omega) (by omega)) (by decide)

theorem cleanImage_of_encodeTime {t : CanonicalTime} {img : RegisterImage} (h : encodeTime t = .ok img) :
    CleanImage img := by
  obtain ⟨ht, rfl⟩ := encodeTime_ok_iff_packed.1 h
  exact cleanImage_packed ht

/-- Settles O13: an encoded image holds the digits of a time in range, each byte small enough for its mask. -/
theorem encodedImageClean : Obligations.EncodedImageClean := by
  unfold Obligations.EncodedImageClean
  intro t img
  exact cleanImage_of_encodeTime

theorem not_malformed_of_clean {img : RegisterImage} (h : CleanImage img) : ¬ Claims.Malformed img := by
  obtain ⟨⟨hsec, hmin, hhr, -, hdate, hmon, hyr⟩, -⟩ := h
  rw [bcdByte_iff] at hsec hmin hhr hdate hmon hyr
  unfold Claims.Malformed
  omega

theorem readOut_packed {t : CanonicalTime} (h : Claims.InRange t) : Claims.readOut (Claims.packed t) = t := by
  obtain ⟨hsec, hsec', hmin, hmin', hhr, hhr', hday, hday', hdate, hdate', hmon, hmon', hyr, hyr'⟩ := h
  have hcentury : t.year % 100 = t.year - 100 := by omega
  simp only [Claims.readOut, Claims.packed, hcentury]
  rw [digits_and_7F hsec (by omega), digits_and_7F hmin (by omega), hourBits_digits hhr (by omega),
    digits_and_07 (by omega) (by omega), digits_and_3F (n := t.dayOfMonth) (by omega) (by omega),
    digits_and_1F (by omega) (by omega), number_digits hsec (by omega), number_digits hmin (by omega),
    number_digits hhr (by omega), number_digits (by omega) (by omega),
    number_digits (n := t.dayOfMonth) (by omega) (by omega), number_digits (by omega) (by omega),
    number_digits (by omega) (by omega)]
  simp

theorem decodeImage_packed {t : CanonicalTime} (h : Claims.InRange t) : decodeImage (Claims.packed t) = .ok t :=
  decodeImage_ok_iff_readOut.2 ⟨not_malformed_of_clean (cleanImage_packed h), h, (readOut_packed h).symm⟩

/-- Settles O14: the image of a time in range is clean, so no nibble is malformed, and its masked digits are the
fields. -/
theorem decodeOfEncodeIsIdentity : Obligations.DecodeOfEncodeIsIdentity := by
  unfold Obligations.DecodeOfEncodeIsIdentity
  intro t ht
  exact ⟨Claims.packed t, encodeTime_eq_packed ht, decodeImage_packed ht⟩

end Sys2Proof.Machine
end

section
/-! DECODE of every image: its three answers, the bits it looks at, and what ENCODE gives back (R63, R120, R127,
R128, R130). -/

namespace Sys2Proof.Machine

/-! Phase 1 has one error: every translator answers MalformedBcd or a value (R120). -/

/-- The computation has no error but MalformedBcd. -/
def OnlyMalformed {α : Type} (r : Except CodecError α) : Prop := ∀ e, r = .error e → e = .malformedBcd

theorem onlyMalformed_pure {α : Type} (a : α) : OnlyMalformed (pure a) := nofun

theorem OnlyMalformed.bind {α β : Type} {r : Except CodecError α} {f : α → Except CodecError β}
    (hr : OnlyMalformed r) (hf : ∀ a, OnlyMalformed (f a)) : OnlyMalformed (r >>= f) := by
  cases r with
  | ok a => exact hf a
  | error e => exact fun e' he => hr e' (congrArg Except.error (Except.error.inj he))

theorem onlyMalformed_bcdToBin (b : Byte) : OnlyMalformed (bcdToBin b) := fun _ h => (bcdToBin_error_iff.1 h).2

theorem onlyMalformed_addOffset (k : Int) (b : Byte) : OnlyMalformed (addOffset k (bcdToBin b)) :=
  fun _ h => onlyMalformed_bcdToBin b _ (addOffset_error_iff.1 h)

theorem onlyMalformed_unpackImage (img : RegisterImage) : OnlyMalformed (unpackImage img) :=
  (onlyMalformed_bcdToBin _).bind fun _ => (onlyMalformed_bcdToBin _).bind fun _ =>
    (onlyMalformed_bcdToBin _).bind fun _ => (onlyMalformed_addOffset _ _).bind fun _ =>
      (onlyMalformed_bcdToBin _).bind fun _ => (onlyMalformed_addOffset _ _).bind fun _ =>
        (onlyMalformed_addOffset _ _).bind fun _ => onlyMalformed_pure _

/-! The three answers of `decode`. -/

theorem decodeImage_of_malformed {img : RegisterImage} (h : Claims.Malformed img) :
    decodeImage img = .error .malformedBcd := by
  cases hunpack : unpackImage img with
  | ok t => exact absurd h (unpackImage_ok_iff_readOut.1 hunpack).1
  | error e =>
    obtain rfl := onlyMalformed_unpackImage img e hunpack
    simp only [decodeImage, hunpack]

theorem decodeImage_of_not_inRange {img : RegisterImage} (hdigits : ¬ Claims.Malformed img)
    (hrange : ¬ Claims.InRange (Claims.readOut img)) : decodeImage img = .error .fieldOutOfRange := by
  have hunpack : unpackImage img = .ok (Claims.readOut img) := unpackImage_ok_iff_readOut.2 ⟨hdigits, rfl⟩
  simp only [decodeImage, hunpack]
  exact if_neg (hrange ∘ valid_iff_inRange.1)

theorem decodeImage_of_inRange {img : RegisterImage} (hdigits : ¬ Claims.Malformed img)
    (hrange : Claims.InRange (Claims.readOut img)) : decodeImage img = .ok (Claims.readOut img) :=
  decodeImage_ok_iff_readOut.2 ⟨hdigits, hrange, rfl⟩

/-- Settles O10: DECODE finishes with one of `decode`'s three answers, MalformedBcd before the range check. -/
theorem decodeUnpacksImage : Obligations.DecodeUnpacksImage := by
  unfold Obligations.DecodeUnpacksImage
  refine ⟨?malformed, ?outside, ?inside, fun _ => rfl⟩
  case malformed =>
    intro img s hbad
    rw [exec_decode, decodeImage_of_malformed hbad]
    rfl
  case outside =>
    intro img s hdigits hrange
    rw [exec_decode, decodeImage_of_not_inRange hdigits hrange]
    rfl
  case inside =>
    intro img s hdigits hrange
    rw [exec_decode, decodeImage_of_inRange hdigits hrange]
    rfl

/-! ENCODE of the digits that were read (R127). -/

theorem units_and_le_nine {b m : Byte} (hb : Claims.units b ≤ 9) : Claims.units (b &&& m) ≤ 9 := by
  rw [units_and]
  exact Nat.and_le_left.trans hb

/-- A masked byte whose digits are read and written again is the masked byte. -/
theorem digits_number_and {b m : Byte} (hm : Claims.tens m ≤ 9) (hb : Claims.units b ≤ 9) :
    Claims.digits (Claims.number (b &&& m)) = b &&& m :=
  digits_number ((tens_and_le b m).trans hm) (units_and_le_nine hb)

theorem digits_number_hourBits {b : Byte} (hb : Claims.units b ≤ 9) :
    Claims.digits (Claims.number (Claims.hourBits b)) = Claims.hourBits b := by
  unfold Claims.hourBits
  split
  · exact digits_number_and (by decide) hb
  · exact digits_number_and (by decide) hb

/-- The weekday's digits need no check: the mask itself has digits for nibbles. -/
theorem digits_number_and_07 (b : Byte) : Claims.digits (Claims.number (b &&& 0x07#8)) = b &&& 0x07#8 :=
  digits_number ((tens_and_le b _).trans (by decide)) ((units_and_le b _).trans (by decide))

/-- The values that were read pack to the image with every bit cleared that DECODE did not consume. -/
theorem packed_readOut {img : RegisterImage} (h : ¬ Claims.Malformed img) :
    Claims.packed (Claims.readOut img) = ⟨img.sec &&& 0x7F#8, img.min &&& 0x7F#8, Claims.hourBits img.hr,
      img.day &&& 0x07#8, img.date &&& 0x3F#8, img.mon &&& 0x1F#8, img.yr⟩ := by
  simp only [Claims.Malformed, not_or, Nat.not_lt] at h
  obtain ⟨hsec, hmin, hhr, hdate, hmon, hyrt, hyru⟩ := h
  have hyear : (Claims.number img.yr + 100) % 100 = Claims.number img.yr := by
    have := number_nonneg img.yr
    have := number_le hyrt hyru
    omega
  simp only [Claims.packed, Claims.readOut, Int.sub_add_cancel, hyear]
  rw [digits_number_and (by decide) hsec, digits_number_and (by decide) hmin, digits_number_hourBits hhr,
    digits_number_and_07, digits_number_and (by decide) hdate, digits_number_and (by decide) hmon,
    digits_number hyrt hyru]

/-- Settles O15: the decoded time is the masked digits, and packing digits gives their bytes back. -/
theorem encodeOfDecodeClearsIgnored : Obligations.EncodeOfDecodeClearsIgnored := by
  unfold Obligations.EncodeOfDecodeClearsIgnored
  intro img t h
  obtain ⟨hdigits, hrange, rfl⟩ := decodeImage_ok_iff_readOut.1 h
  rw [encodeTime_eq_packed hrange, packed_readOut hdigits]

/-! The codec keeps the order of each field (R128). -/

/-- On the century of the year range, `% 100` keeps the order. -/
theorem encYear_strictMono {n m : Int} {b c : Byte} (hn : 100 ≤ n ∧ n ≤ 199) (hm : 100 ≤ m ∧ m ≤ 199)
    (hnm : n < m) (hb : encYear n = .ok b) (hc : encYear m = .ok c) : b.toNat < c.toNat :=
  binToBcd_strictMono (by omega) hb hc

/-- Settles O16: totality is the two encode equations and the round trip; the order is that of `bin_to_bcd` in each
field; outside the ranges DECODE has its two errors. -/
theorem codecTotalAndMonotone : Obligations.CodecTotalAndMonotone := by
  unfold Obligations.CodecTotalAndMonotone
  refine ⟨?encodes, ?decodes, ?order, ?outside, ?bad⟩
  case encodes => exact fun t ht => ⟨_, encodeTime_eq_packed ht⟩
  case decodes =>
    intro t img h
    obtain ⟨ht, rfl⟩ := encodeTime_ok_iff_packed.1 h
    exact ⟨t, decodeImage_packed ht⟩
  case order =>
    intro t t' img img' h h'
    obtain ⟨hvalid, hpack⟩ := encodeTime_ok_iff.1 h
    obtain ⟨hvalid', hpack'⟩ := encodeTime_ok_iff.1 h'
    obtain ⟨-, -, -, -, -, -, hyear⟩ := valid_ranges hvalid
    obtain ⟨-, -, -, -, -, -, hyear'⟩ := valid_ranges hvalid'
    obtain ⟨hsec, hmin, hhr, hday, hdate, hmon, hyr⟩ := packTime_ok_iff.1 hpack
    obtain ⟨hsec', hmin', hhr', hday', hdate', hmon', hyr'⟩ := packTime_ok_iff.1 hpack'
    exact ⟨fun hlt => binToBcd_strictMono hlt hsec hsec', fun hlt => binToBcd_strictMono hlt hmin hmin',
      fun hlt => binToBcd_strictMono hlt hhr hhr',
      fun hlt => binToBcd_strictMono (Int.add_lt_add_right hlt 1) hday hday',
      fun hlt => binToBcd_strictMono hlt hdate hdate',
      fun hlt => binToBcd_strictMono (Int.add_lt_add_right hlt 1) hmon hmon',
      fun hlt => encYear_strictMono hyear hyear' hlt hyr hyr'⟩
  case outside => exact fun t ht => ⟨_, encodeTime_eq_error ht⟩
  case bad =>
    intro img hbad
    by_cases hdigits : Claims.Malformed img
    · exact ⟨_, decodeImage_of_malformed hdigits⟩
    · exact ⟨_, decodeImage_of_not_inRange hdigits (hbad.resolve_left hdigits)⟩

/-! The bits DECODE looks at (R62, R63). -/

/-- DECODE sees an image through the consumed part of each byte only. -/
theorem decodeImage_congr {x y : RegisterImage} (hsec : consumedSec x.sec = consumedSec y.sec)
    (hmin : consumedMin x.min = consumedMin y.min) (hhr : consumedHr x.hr = consumedHr y.hr)
    (hday : consumedDay x.day = consumedDay y.day) (hdate : consumedDate x.date = consumedDate y.date)
    (hmon : consumedMon x.mon = consumedMon y.mon) (hyr : x.yr = y.yr) : decodeImage x = decodeImage y := by
  have hunpack : unpackImage x = unpackImage y := by
    simp only [unpackImage, decSeconds, decMinutes, decHours, decWeekday, decDayOfMonth, decMonth, hsec, hmin, hhr,
      hday, hdate, hmon, hyr]
  rw [decodeImage, decodeImage, hunpack]

theorem decodeImage_of_sameConsumed {x y : RegisterImage} (h : Claims.SameConsumed x y) :
    decodeImage x = decodeImage y := by
  obtain ⟨hsec, hmin, -, hhr, hday, hdate, hmon, hyr⟩ := h
  exact decodeImage_congr hsec hmin (by rw [consumedHr_eq_hourBits, consumedHr_eq_hourBits, hhr]) hday hdate hmon hyr

/-- Settles O17: `decode` reads the consumed parts, and READ_TIME hands it the image the chip holds. -/
theorem ignoredBitsHaveNoEffect : Obligations.IgnoredBitsHaveNoEffect := by
  unfold Obligations.IgnoredBitsHaveNoEffect
  refine ⟨fun _ _ => decodeImage_of_sameConsumed, ?_⟩
  intro s s' t t' hs hs' hr hr' hsame h h'
  rw [exec_readTime_ok hs hr, decodeImage_of_sameConsumed hsame] at h
  rw [exec_readTime_ok hs' hr'] at h'
  cases h
  cases h'
  rfl

/-! The 12-hour form (R130). -/

/-- With the hours byte replaced by one of the same consumed part, an image decodes the same. -/
theorem decodeImage_withHours {img : RegisterImage} {hr : Byte} (h : consumedHr img.hr = consumedHr hr) :
    decodeImage img = decodeImage { img with hr := hr } :=
  decodeImage_congr rfl rfl h rfl rfl rfl rfl

theorem hourBits_of_mode12 {b : Byte} (h : b.getLsbD 6 = true) : Claims.hourBits b = b &&& 0x1F#8 := if_pos h

/-- The numeral of a 12-hour byte, placed as a 24-hour byte, is read whole. -/
theorem hourBits_and_1F (b : Byte) : Claims.hourBits (b &&& 0x1F#8) = b &&& 0x1F#8 := by
  have hmode : (b &&& 0x1F#8).getLsbD 6 = false := by simp
  rw [Claims.hourBits, hmode]
  exact BitVec.and_assoc b 0x1F#8 0x3F#8

/-- Bit 5 of a 12-hour byte lies outside its mask. -/
theorem hourBits_xor_20 {b : Byte} (h : b.getLsbD 6 = true) : Claims.hourBits (b ^^^ 0x20#8) = b &&& 0x1F#8 := by
  have hmode : (b ^^^ 0x20#8).getLsbD 6 = true := by simp [h]
  rw [hourBits_of_mode12 hmode]
  apply BitVec.eq_of_toNat_eq
  rw [BitVec.toNat_and, BitVec.toNat_xor, Nat.and_xor_distrib_right, ← BitVec.toNat_and]
  exact Nat.xor_zero _

/-- Settles O18: in 12-hour mode the consumed part of HR is its low five bits, which neither bit 5 nor the mode bit
reaches. -/
theorem twelveHourReadsRawNumeral : Obligations.TwelveHourReadsRawNumeral := by
  unfold Obligations.TwelveHourReadsRawNumeral
  intro img hmode
  have hbits := hourBits_of_mode12 hmode
  refine ⟨?hours, ?range, ?numeral, ?bit5⟩
  case hours =>
    intro t h
    obtain ⟨-, -, rfl⟩ := decodeImage_ok_iff_readOut.1 h
    exact congrArg Claims.number hbits
  case range =>
    intro n h
    obtain ⟨hlo, hhi, -⟩ := decHours_range h
    exact ⟨hlo, hhi hmode⟩
  case numeral =>
    exact decodeImage_withHours (by rw [consumedHr_eq_hourBits, consumedHr_eq_hourBits, hbits, hourBits_and_1F])
  case bit5 =>
    exact decodeImage_withHours (by rw [consumedHr_eq_hourBits, consumedHr_eq_hourBits, hbits, hourBits_xor_20 hmode])

end Sys2Proof.Machine
end

section
/-! The step, by the host's next event (R24, R71, R185). -/

namespace Sys2Proof.Machine

theorem step_nil {s : State} (h : s.inbox = []) : step s = .next s := by
  simp [step, h, waitForHost]

theorem step_reset {s : State} {rest : List Event} (h : s.inbox = .reset :: rest) :
    step s = .next { s.resetBlock with inbox := rest } := by
  simp [step, h, takeReset]

theorem step_command {s : State} {c : Command} {t : BusTurn} {rest : List Event} {i : Instr}
    (h : s.inbox = .command c t :: rest) (hi : decode c = .ok i) : step s = exec i (s.receive t rest) := by
  simp [step, h, hi]

theorem step_reserved {s : State} {c : Command} {t : BusTurn} {rest : List Event}
    (h : s.inbox = .command c t :: rest) (hi : decode c = .error .reservedOp) :
    step s = .next ((s.receive t rest).finish .refused) := by
  simp [step, h, hi, answerReserved]

/-- ALL THAT CAN STAND NEXT in the host's list: nothing, a reset, an operation, or the reserved code. -/
theorem inbox_cases (s : State) :
    s.inbox = [] ∨ (∃ rest, s.inbox = .reset :: rest) ∨
    (∃ c t rest i, s.inbox = .command c t :: rest ∧ decode c = .ok i) ∨
    (∃ c t rest, s.inbox = .command c t :: rest ∧ decode c = .error .reservedOp) := by
  cases hin : s.inbox with
  | nil => exact .inl rfl
  | cons e rest =>
    cases e with
    | reset => exact .inr (.inl ⟨rest, rfl⟩)
    | command c t =>
      cases hc : decode c with
      | ok i => exact .inr (.inr (.inl ⟨c, t, rest, i, rfl, hc⟩))
      | error e => exact .inr (.inr (.inr ⟨c, t, rest, rfl, hc⟩))

/-- ALL A STEP CAN DO when it goes on, by the host's next event (R24, R71, R185). -/
theorem step_next {s s' : State} (h : step s = .next s') :
    (s.inbox = [] ∧ s' = s) ∨
    (∃ rest, s.inbox = .reset :: rest ∧ s' = { s.resetBlock with inbox := rest }) ∨
    (∃ t rest i, exec i (s.receive t rest) = .next s') ∨
    (∃ t rest, s' = (s.receive t rest).finish .refused) := by
  obtain hin | ⟨rest, hin⟩ | ⟨c, t, rest, i, hin, hc⟩ | ⟨c, t, rest, hin, hc⟩ := inbox_cases s
  · rw [step_nil hin] at h
    cases h
    exact .inl ⟨hin, rfl⟩
  · rw [step_reset hin] at h
    cases h
    exact .inr (.inl ⟨rest, hin, rfl⟩)
  · rw [step_command hin hc] at h
    exact .inr (.inr (.inl ⟨t, rest, i, h⟩))
  · rw [step_reserved hin hc] at h
    cases h
    exact .inr (.inr (.inr ⟨t, rest, rfl⟩))

theorem decode_of_decodeTableWord {nbits w : Nat} {i : Instr} (h : decodeTableWord nbits w = some i) :
    decode (commandOfTableWord nbits w) = .ok i := by
  unfold decodeTableWord at h
  split at h
  case h_1 j hj => exact hj.trans (congrArg Except.ok (Option.some.inj h))
  case h_2 => cases h

/-- Settles O43: both are the step's equation for a command; a placed table word is received into the state it was
placed in. -/
theorem stepRunsDecodedOperation : Obligations.StepRunsDecodedOperation := by
  unfold Obligations.StepRunsDecodedOperation
  refine ⟨?_, ?_⟩
  · intro s c t rest i hin hc
    exact step_command hin hc
  · intro s nbits w i hw
    rw [State.withFetchWord, step_command (s.presented_inbox _) (decode_of_decodeTableWord hw),
      State.presented_receive]

/-- Settles O44: `op = 7` decodes to no operation, and the answer to it is the result Refused alone. -/
theorem reservedOpRefused : Obligations.ReservedOpRefused := by
  unfold Obligations.ReservedOpRefused
  intro s c t rest hin hop
  exact step_reserved hin (decode_reservedOp hop)

/-- Settles O45: the reset state's fields are as written, and the reset event and the wait have one equation each. -/
theorem resetTouchesOnlyTheBlock : Obligations.ResetTouchesOnlyTheBlock := by
  unfold Obligations.ResetTouchesOnlyTheBlock
  exact ⟨rfl, rfl, rfl, rfl, fun _ _ => step_reset, fun _ => step_nil⟩

end Sys2Proof.Machine
end

section
/-! The invariant: it holds after reset, each update of the state keeps it under its own condition, and so every
step keeps it (R21, R46, R125, R146, R188). -/

namespace Sys2Proof.Machine

/-! The results that the codec's answers give are legal (R91, R92, R115, R121, R125). -/

theorem legalResult_number {r : Except CodecError Int} (h : ∀ n, r = .ok n → 0 ≤ n ∧ n ≤ 99) :
    LegalResult (codecResult .number r) := by
  cases r with
  | ok n => exact h n rfl
  | error e => trivial

theorem legalResult_byte (n : Int) : LegalResult (codecResult .byte (binToBcd n)) := by
  cases hb : binToBcd n with
  | ok b =>
    obtain ⟨⟨h0, h99⟩, rfl⟩ := binToBcd_ok_iff_digits.1 hb
    exact bcdByte_digits h0 h99
  | error e => trivial

theorem legalResult_timeValue {t : CanonicalTime} (h : valid t = true) : LegalResult (.ok (timeValue t)) :=
  ⟨h, rfl, rfl⟩

theorem legalResult_decode (img : RegisterImage) : LegalResult (codecResult timeValue (decodeImage img)) := by
  cases ht : decodeImage img with
  | ok t => exact legalResult_timeValue (decodeImage_ok_iff.1 ht).2
  | error e => trivial

theorem legalResult_readTime (img : RegisterImage) : LegalResult (sessionResult timeValue (decodeImage img)) := by
  cases ht : decodeImage img with
  | ok t => exact legalResult_timeValue (decodeImage_ok_iff.1 ht).2
  | error e => trivial

theorem legalResult_encode (t : CanonicalTime) : LegalResult (codecResult .image (encodeTime t)) := by
  cases himg : encodeTime t with
  | ok img => exact cleanImage_of_encodeTime himg
  | error e => trivial

/-! The calls that the operations make are of the three shapes (R46, R125, R144). -/

theorem legalCall_bulkRead : LegalCall (.bulkRead imageOffset imageCount) := ⟨rfl, rfl⟩

theorem legalCall_bulkWrite {t : CanonicalTime} {img : RegisterImage} (h : encodeTime t = .ok img) :
    LegalCall (.bulkWrite imageOffset (imageBytes img)) := ⟨rfl, img, cleanImage_of_encodeTime h, rfl⟩

theorem legalCall_writeSingle : LegalCall (.writeSingle hoursOffset modeByte) := ⟨rfl, rfl⟩

/-! What each update of the state needs to keep the invariant. -/

theorem State.Inv.finish {s : State} (h : s.Inv) {r : OpResult} (hr : LegalResult r) : (s.finish r).Inv where
  chip_wf := h.chip_wf
  calls := h.calls
  result := by simpa using hr
  bringUp := h.bringUp

theorem State.Inv.afterCall {s : State} (h : s.Inv) {c : BusCall} {m : Memory} (hc : LegalCall c) (hm : m.wf) :
    (s.afterCall c m).Inv where
  chip_wf := hm
  calls := by
    intro c' hc'
    rcases List.mem_append.1 hc' with hold | hnew
    · exact h.calls c' hold
    · exact List.mem_singleton.1 hnew ▸ hc
  result := h.result
  bringUp := fun hready => List.mem_append_left _ (h.bringUp hready)

theorem State.Inv.freshFree {s : State} (h : s.Inv) : s.freshFree.Inv :=
  ⟨h.chip_wf, h.calls, h.result, h.bringUp⟩

theorem State.Inv.becomeReady {s : State} (h : s.Inv) (hcall : .writeSingle hoursOffset modeByte ∈ s.trace) :
    s.becomeReady.Inv :=
  ⟨h.chip_wf, h.calls, h.result, fun _ => hcall⟩

theorem State.Inv.receive {s : State} (h : s.Inv) (t : BusTurn) (rest : List Event) : (s.receive t rest).Inv :=
  ⟨h.chip_wf, h.calls, h.result, h.bringUp⟩

theorem State.Inv.resetBlock {s : State} (h : s.Inv) (rest : List Event) : { s.resetBlock with inbox := rest }.Inv where
  chip_wf := h.chip_wf
  calls := h.calls
  result := nofun
  bringUp := nofun

/-- Settles O50: after reset the chip's list, the trace and the result are empty and the block is not `Ready`. -/
theorem invariantAtReset : Obligations.InvariantAtReset where
  chip_wf := Memory.wf_nil
  calls := nofun
  result := nofun
  bringUp := nofun

/-! The session operations, each way they can end. -/

theorem execReadTime_keepsInv {s s' : State} (h : s.Inv) (hexec : execReadTime s = .next s') : s'.Inv := by
  have hcalled := h.afterCall legalCall_bulkRead (s.chipNow_wf h.chip_wf)
  obtain ⟨-, rfl⟩ | ⟨-, -, rfl⟩ | ⟨code, -, -, rfl⟩ := execReadTime_next hexec
  · exact h.finish trivial
  · exact hcalled.freshFree.finish (legalResult_readTime _)
  · exact hcalled.finish trivial

theorem execSetTime_keepsInv {t : CanonicalTime} {s s' : State} (h : s.Inv) (hexec : execSetTime t s = .next s') :
    s'.Inv := by
  have hchip := s.chipNow_wf h.chip_wf
  obtain ⟨-, rfl⟩ | ⟨e, -, -, rfl⟩ | ⟨img, -, himg, -, rfl⟩ | ⟨img, code, -, himg, -, rfl⟩ := execSetTime_next hexec
  · exact h.finish trivial
  · exact h.finish trivial
  · exact (h.afterCall (legalCall_bulkWrite himg)
      (Memory.wf_writeBytes _ hchip (imageBytes_in_space img))).finish trivial
  · exact (h.afterCall (legalCall_bulkWrite himg) (Memory.wf_forgetRange _ hchip _)).finish trivial

theorem execInitSession_keepsInv {s s' : State} (h : s.Inv) (hexec : execInitSession s = .next s') : s'.Inv := by
  have hchip := s.chipNow_wf h.chip_wf
  obtain ⟨-, rfl⟩ | ⟨code, -, rfl⟩ := bringUp_next hexec
  · exact ((h.afterCall legalCall_writeSingle (Memory.wf_writeBytes _ hchip (hours_in_space _))).becomeReady
      (List.mem_append_right _ (List.mem_singleton_self _))).finish trivial
  · exact (h.afterCall legalCall_writeSingle (Memory.wf_forgetRange _ hchip _)).finish trivial

theorem exec_keepsInv {i : Instr} {s s' : State} (h : s.Inv) (hexec : exec i s = .next s') : s'.Inv := by
  cases i with
  | bcd2bin b => cases hexec; exact h.finish (legalResult_number fun _ => range_of_bcdToBin)
  | bin2bcd n => cases hexec; exact h.finish (legalResult_byte n)
  | decode img => cases hexec; exact h.finish (legalResult_decode img)
  | encode t => cases hexec; exact h.finish (legalResult_encode t)
  | readTime => exact execReadTime_keepsInv h hexec
  | setTime t => exact execSetTime_keepsInv h hexec
  | initSession => exact execInitSession_keepsInv h hexec

/-- Settles O51: waiting and the reserved answer change no call, a reset leaves `Ready`, and each operation keeps the
invariant in every way it can end. -/
theorem stepKeepsInvariant : Obligations.StepKeepsInvariant := by
  unfold Obligations.StepKeepsInvariant
  intro s s' h hstep
  obtain ⟨-, rfl⟩ | ⟨rest, -, rfl⟩ | ⟨t, rest, i, hexec⟩ | ⟨t, rest, rfl⟩ := step_next hstep
  · exact h
  · exact h.resetBlock rest
  · exact exec_keepsInv (h.receive t rest) hexec
  · exact (h.receive t rest).finish trivial

end Sys2Proof.Machine
end

section
/-! The session operations by the answer of the bus: what each runs to, with the whole next state (R141 to R145,
R41 to R59). -/

namespace Sys2Proof.Machine

/-! The equations of the answers that the failed call leaves: success, the wrong length, and no answer. -/

theorem exec_setTime_stores {t : CanonicalTime} {img : RegisterImage} {s : State} (hs : s.session = .ready)
    (he : encodeTime t = .ok img) (hr : s.bus.reply.Stores) :
    exec (.setTime t) s = .next ((s.afterCall (.bulkWrite imageOffset (imageBytes img))
      (s.chipNow.writeBytes imageOffset.toNat (imageBytes img))).finish (.ok .unit)) := by
  simp [exec, execSetTime, whenReady, hs, he, memWrite, memStore_ok (imageBytes_in_space img) hr]

theorem bringUp_stores {mode : Byte} {s : State} (hr : s.bus.reply.Stores) :
    bringUp mode s = .next ((s.afterCall (.writeSingle hoursOffset mode)
      (s.chipNow.writeBytes hoursOffset.toNat [mode])).becomeReady.finish (.ok .unit)) := by
  simp [bringUp, memWrite1, memStore_ok (hours_in_space mode) hr]

theorem exec_initSession_stores {s : State} (hr : s.bus.reply.Stores) :
    exec .initSession s = .next ((s.afterCall (.writeSingle hoursOffset modeByte)
      (s.chipNow.writeBytes hoursOffset.toNat [modeByte])).becomeReady.finish (.ok .unit)) :=
  bringUp_stores hr

theorem exec_readTime_wrongLength {s : State} (hs : s.session = .ready) (hr : s.bus.reply = .okWrongLength) :
    exec .readTime s = .refused .wrongLengthRead := by
  simp [exec, execReadTime, whenReady, hs, memRead_okWrongLength image_in_space hr, imageOfBytes]

theorem exec_readTime_noAnswer {s : State} (hs : s.session = .ready) (hr : s.bus.reply = .noAnswer) :
    exec .readTime s = .fault .busNeverAnswers := by
  simp [exec, execReadTime, whenReady, hs, memRead_noAnswer image_in_space hr]

theorem exec_setTime_noAnswer {t : CanonicalTime} {img : RegisterImage} {s : State} (hs : s.session = .ready)
    (he : encodeTime t = .ok img) (hr : s.bus.reply = .noAnswer) :
    exec (.setTime t) s = .fault .busNeverAnswers := by
  simp [exec, execSetTime, whenReady, hs, he, memWrite, memStore_noAnswer (imageBytes_in_space img) hr]

theorem exec_initSession_noAnswer {s : State} (hr : s.bus.reply = .noAnswer) :
    exec .initSession s = .fault .busNeverAnswers := by
  simp [exec, execInitSession, bringUp, memWrite1, memStore_noAnswer (hours_in_space modeByte) hr]

/-- Settles O39: the three equations of a call that never returns. -/
theorem silentBusHangs : Obligations.SilentBusHangs := by
  unfold Obligations.SilentBusHangs
  exact ⟨fun _ => exec_readTime_noAnswer, fun _ _ hs ht => exec_setTime_noAnswer hs (encodeTime_eq_packed ht),
    fun _ => exec_initSession_noAnswer⟩

/-- Settles O40: no bytes are no image. -/
theorem wrongLengthReadRefused : Obligations.WrongLengthReadRefused := by
  unfold Obligations.WrongLengthReadRefused
  intro s
  exact exec_readTime_wrongLength

/-- Settles O20: READ_TIME's equations for the gate, for a failed call and for a successful one, the last with each of
the codec's answers. -/
theorem readTimeReadsOnce : Obligations.ReadTimeReadsOnce := by
  unfold Obligations.ReadTimeReadsOnce
  refine ⟨fun s => exec_readTime_uninitialized, fun s code => exec_readTime_err, ?error, ?time, rfl⟩
  case error =>
    intro s e hs hr he
    rw [exec_readTime_ok hs hr, he]
    rfl
  case time =>
    intro s t hs hr ht
    rw [exec_readTime_ok hs hr, ht]
    rfl

/-! The chip after a write of an image (R42, R47). -/

theorem read?_writeBytes_image (m : Memory) (img : RegisterImage) {i : Nat} (hi : i < 7) :
    (m.writeBytes imageOffset.toNat (imageBytes img)).read? i = (imageBytes img)[i]? :=
  (congrArg _ (Nat.zero_add i).symm).trans (Memory.read?_writeBytes_inside _ _ _ _ hi)

/-- Settles O22: SET_TIME's equations for the gate, the codec error, a stored write and a failed one; the chip is read
by the laws of `writeBytes` and `forgetRange`. -/
theorem setTimeWritesOnce : Obligations.SetTimeWritesOnce := by
  unfold Obligations.SetTimeWritesOnce
  refine ⟨fun s t => exec_setTime_uninitialized, ?invalid, ?stores, ?fails, fun _ => rfl⟩
  case invalid =>
    intro s t hs ht
    exact exec_setTime_codecError hs (encodeTime_eq_error ht)
  case stores =>
    intro s t hs ht hr
    exact ⟨_, exec_setTime_stores hs (encodeTime_eq_packed ht) hr,
      fun i hi => Memory.read?_writeBytes_inside _ _ _ _ hi,
      fun a ha => Memory.read?_writeBytes_outside _ _ _ _ ha⟩
  case fails =>
    intro s t code hs ht hr
    exact ⟨_, exec_setTime_err hs (encodeTime_eq_packed ht) hr,
      fun i hi => Memory.read?_forgetRange_inside _ _ _ _ ⟨Nat.le_add_right _ i, Nat.add_lt_add_left hi _⟩,
      fun a ha => Memory.read?_forgetRange_outside _ _ _ _ ha⟩

theorem read?_writeBytes_single (m : Memory) (a : Nat) (b : Byte) : (m.writeBytes a [b]).read? a = some b :=
  Memory.read?_write_same m a b

theorem read?_writeBytes_single_other (m : Memory) {a c : Nat} (b : Byte) (h : c ≠ a) :
    (m.writeBytes a [b]).read? c = m.read? c :=
  Memory.read?_write_other m b h

/-- Settles O23: INITIALIZE's equations for a stored write and a failed one, in either session state. -/
theorem initializeWritesModeByte : Obligations.InitializeWritesModeByte := by
  unfold Obligations.InitializeWritesModeByte
  refine ⟨?stores, ?fails, rfl⟩
  case stores =>
    intro s hr
    exact ⟨_, exec_initSession_stores hr, read?_writeBytes_single _ _ _,
      fun a ha => read?_writeBytes_single_other _ _ ha⟩
  case fails =>
    intro s code hr
    exact ⟨_, exec_initSession_err hr, Memory.read?_forgetRange_inside _ _ _ _ (by omega),
      fun a ha => Memory.read?_forgetRange_outside _ _ _ _ (by omega)⟩

/-! What a READ_TIME finds on the chip (R55, decision D20). -/

theorem State.chipByte_of_read? {s : State} {a : Nat} {b : Byte} (h : s.chipNow.read? a = some b) :
    s.chipByte a = b := by
  simp only [State.chipByte, h]

/-- A chip whose seven registers are determined as an image holds that image. -/
theorem imageHeld_of_read? {s : State} {img : RegisterImage}
    (h : ∀ i, i < 7 → s.chipNow.read? i = (imageBytes img)[i]?) : imageHeld s = img := by
  obtain ⟨sec, min, hr, day, date, mon, yr⟩ := img
  rw [imageHeld, RegisterImage.mk.injEq]
  exact ⟨s.chipByte_of_read? (h 0 (by decide)), s.chipByte_of_read? (h 1 (by decide)),
    s.chipByte_of_read? (h 2 (by decide)), s.chipByte_of_read? (h 3 (by decide)),
    s.chipByte_of_read? (h 4 (by decide)), s.chipByte_of_read? (h 5 (by decide)),
    s.chipByte_of_read? (h 6 (by decide))⟩

theorem drifted_driftTo (m : Memory) (img : RegisterImage) :
    m.drifted (Claims.driftTo img) = m.writeBytes imageOffset.toNat (imageBytes img) := rfl

theorem imageHeld_driftTo (s : State) (img : RegisterImage) (r : BusReply) :
    imageHeld { s with bus := ⟨Claims.driftTo img, r⟩ } = img := by
  refine imageHeld_of_read? fun i hi => ?_
  rw [State.chipNow, drifted_driftTo]
  exact read?_writeBytes_image s.chip img hi

/-- Settles O21: the chip's own change puts the image there, and the read takes what it holds. -/
theorem readDeliversAnyBytes : Obligations.ReadDeliversAnyBytes := by
  unfold Obligations.ReadDeliversAnyBytes
  intro s img hs
  refine ⟨_, exec_readTime_ok hs rfl, rfl, hs, ?_, ?_⟩
  · intro t ht
    rw [imageHeld_driftTo, ht]
    rfl
  · intro e he
    rw [imageHeld_driftTo, he]
    rfl

/-! The order of the checks (R141, R167). -/

theorem codecResult_ne_refused {α : Type} (value : α → Value) (r : Except CodecError α) :
    codecResult value r ≠ .refused := by
  cases r <;> simp [codecResult]

theorem sessionResult_ne_refused {α : Type} (value : α → Value) (r : Except CodecError α) :
    sessionResult value r ≠ .refused := by
  cases r <;> simp [sessionResult]

/-- Where Refused comes from: the gate, before bring-up (R164). -/
theorem gate_of_refused {i : Instr} {s s' : State} (h : exec i s = .next s') (hres : s'.result = some .refused) :
    s.session = .uninitialized ∧ (i = .readTime ∨ ∃ t, i = .setTime t) := by
  cases i with
  | bcd2bin _ | bin2bcd _ | decode _ | encode _ =>
    cases h
    exact absurd (Option.some.inj hres) (codecResult_ne_refused _ _)
  | readTime =>
    obtain ⟨hs, rfl⟩ | ⟨-, -, rfl⟩ | ⟨code, -, -, rfl⟩ := execReadTime_next h
    · exact ⟨hs, .inl rfl⟩
    · exact absurd (Option.some.inj hres) (sessionResult_ne_refused _ _)
    · simp at hres
  | setTime t =>
    obtain ⟨hs, rfl⟩ | ⟨e, -, -, rfl⟩ | ⟨img, -, -, -, rfl⟩ | ⟨img, code, -, -, -, rfl⟩ := execSetTime_next h
    · exact ⟨hs, .inr ⟨t, rfl⟩⟩
    all_goals simp at hres
  | initSession =>
    obtain ⟨-, rfl⟩ | ⟨code, -, rfl⟩ := bringUp_next h
    all_goals simp at hres

/-- Settles O25: the gate's two equations, and that no other end of an operation is Refused. -/
theorem gateRefusesBeforeBringUp : Obligations.GateRefusesBeforeBringUp := by
  unfold Obligations.GateRefusesBeforeBringUp
  exact ⟨fun _ hs => ⟨exec_readTime_uninitialized hs, fun _ => exec_setTime_uninitialized hs⟩,
    fun _ _ _ => gate_of_refused⟩

/-- The result of an operation whose end is known. -/
theorem result_of_exec {o : Host.Outcome State Fault Refusal} {s' u : State} {r : OpResult} (h : o = .next s')
    (hu : o = .next (u.finish r)) : s'.result = some r :=
  congrArg State.result (Host.Outcome.next.inj (h.symm.trans hu))

/-- Settles O37: each item is the equation of the check that comes first. -/
theorem outcomePriority : Obligations.OutcomePriority := by
  unfold Obligations.OutcomePriority
  refine ⟨?gate, ?codecFirst, ?busFirst, ?malformedRead, ?malformedDecode⟩
  case gate =>
    intro s s' t hs h
    exact result_of_exec h (exec_setTime_uninitialized hs)
  case codecFirst =>
    intro s s' t hs ht h
    exact result_of_exec h (exec_setTime_codecError hs (encodeTime_eq_error ht))
  case busFirst =>
    intro s s' code hs hr h
    exact result_of_exec h (exec_readTime_err hs hr)
  case malformedRead =>
    intro s s' hs hr hbad h
    rw [result_of_exec h (exec_readTime_ok hs hr), decodeImage_of_malformed hbad]
    rfl
  case malformedDecode =>
    intro img s s' hbad h
    rw [result_of_exec h (exec_decode img s), decodeImage_of_malformed hbad]
    rfl

end Sys2Proof.Machine
end

section
/-! What an operation changes and what it leaves: the session state, the bus trace and the chip, over every way it
can end (R46, R49, R146 to R148, R188). -/

namespace Sys2Proof.Machine

/-- A codec operation changes the result alone (R22). -/
theorem eq_finish_of_isCodec {i : Instr} {s s' : State} (hi : Claims.IsCodec i) (h : exec i s = .next s') :
    ∃ r, s' = s.finish r := by
  obtain ⟨r, -, hexec⟩ := exec_eq_finish_of_isCodec hi
  rw [hexec s] at h
  cases h
  exact ⟨r, rfl⟩

/-! The session state. -/

theorem session_of_exec {i : Instr} {s s' : State} (hi : i ≠ .initSession) (h : exec i s = .next s') :
    s'.session = s.session := by
  cases i with
  | bcd2bin _ | bin2bcd _ | decode _ | encode _ => cases h; rfl
  | readTime => obtain ⟨-, rfl⟩ | ⟨-, -, rfl⟩ | ⟨code, -, -, rfl⟩ := execReadTime_next h <;> rfl
  | setTime t =>
    obtain ⟨-, rfl⟩ | ⟨e, -, -, rfl⟩ | ⟨img, -, -, -, rfl⟩ | ⟨img, code, -, -, -, rfl⟩ := execSetTime_next h <;> rfl
  | initSession => exact absurd rfl hi

/-- INITIALIZE ends in `Ready`, or in an error and the state it began in (R144, R146). -/
theorem session_of_initSession {s s' : State} (h : exec .initSession s = .next s') :
    (s'.result = some (.ok .unit) ∧ s'.session = .ready) ∨
      (∃ code, s'.result = some (.sessionErr (.transport code)) ∧ s'.session = s.session) := by
  obtain ⟨-, rfl⟩ | ⟨code, -, rfl⟩ := bringUp_next h
  · exact .inl ⟨rfl, rfl⟩
  · exact .inr ⟨code, rfl, rfl⟩

/-- No operation leaves `Ready`. -/
theorem ready_of_exec {i : Instr} {s s' : State} (hs : s.session = .ready) (h : exec i s = .next s') :
    s'.session = .ready := by
  by_cases hi : i = .initSession
  · subst hi
    obtain ⟨-, hready⟩ | ⟨code, -, hsame⟩ := session_of_initSession h
    · exact hready
    · exact hsame.trans hs
  · exact (session_of_exec hi h).trans hs

/-- Settles O26: INITIALIZE's two ends, the frame of the other operations, the gate's equations, the reserved code's
answer; and of the events a step can take only the reset leaves `Ready`. -/
theorem sessionStateTransitions : Obligations.SessionStateTransitions := by
  unfold Obligations.SessionStateTransitions
  refine ⟨fun s s' => session_of_initSession, fun i s s' => session_of_exec, ?readTime, ?setTime, ?reserved, ?leaves⟩
  case readTime =>
    intro s s' hs h
    exact result_of_exec h (exec_readTime_uninitialized hs)
  case setTime =>
    intro t s s' hs h
    exact result_of_exec h (exec_setTime_uninitialized hs)
  case reserved =>
    intro s s' c t rest hin hop h
    rw [step_reserved hin (decode_reservedOp hop)] at h
    cases h
    rfl
  case leaves =>
    intro s s' h hready hleft
    obtain ⟨-, rfl⟩ | ⟨rest, hin, -⟩ | ⟨t, rest, i, hexec⟩ | ⟨t, rest, rfl⟩ := step_next h
    · exact absurd (hready.symm.trans hleft) nofun
    · exact ⟨rest, hin⟩
    · exact absurd ((ready_of_exec (s := s.receive t rest) hready hexec).symm.trans hleft) nofun
    · exact absurd (hready.symm.trans hleft) nofun

/-! The bus trace. -/

theorem trace_of_codec {i : Instr} {s s' : State} (hi : Claims.IsCodec i) (h : exec i s = .next s') :
    s'.trace = s.trace := by
  obtain ⟨r, rfl⟩ := eq_finish_of_isCodec hi h
  rfl

theorem trace_of_readTime {s s' : State} (h : exec .readTime s = .next s') :
    s'.trace = if s.session = .ready then s.trace ++ [.bulkRead 0 7] else s.trace := by
  obtain ⟨hs, rfl⟩ | ⟨hs, -, rfl⟩ | ⟨code, hs, -, rfl⟩ := execReadTime_next h
  · rw [if_neg (by simp [hs])]; rfl
  · rw [if_pos hs]; rfl
  · rw [if_pos hs]; rfl

theorem trace_of_setTime {t : CanonicalTime} {s s' : State} (h : exec (.setTime t) s = .next s') :
    ((s.session = .uninitialized ∨ ∃ e, encodeTime t = .error e) ∧ s'.trace = s.trace) ∨
      (∃ img, s.session = .ready ∧ encodeTime t = .ok img ∧
        s'.trace = s.trace ++ [.bulkWrite 0 (imageBytes img)]) := by
  obtain ⟨hs, rfl⟩ | ⟨e, -, he, rfl⟩ | ⟨img, hs, himg, -, rfl⟩ | ⟨img, code, hs, himg, -, rfl⟩ := execSetTime_next h
  · exact .inl ⟨.inl hs, rfl⟩
  · exact .inl ⟨.inr ⟨e, he⟩, rfl⟩
  · exact .inr ⟨img, hs, himg, rfl⟩
  · exact .inr ⟨img, hs, himg, rfl⟩

theorem trace_of_initSession {s s' : State} (h : exec .initSession s = .next s') :
    s'.trace = s.trace ++ [.writeSingle hoursOffset modeByte] := by
  obtain ⟨-, rfl⟩ | ⟨code, -, rfl⟩ := bringUp_next h <;> rfl

/-- Settles O27: the trace of each operation, over every way it can end. -/
theorem atMostOneCallOfItsShape : Obligations.AtMostOneCallOfItsShape := by
  unfold Obligations.AtMostOneCallOfItsShape
  refine ⟨fun s s' => trace_of_readTime, ?setTime, ?encodes, fun s s' => trace_of_initSession,
    fun i s s' => trace_of_codec⟩
  case setTime =>
    intro t s s' h
    obtain ⟨-, htrace⟩ | ⟨img, hs, himg, htrace⟩ := trace_of_setTime h
    · exact .inl htrace
    · exact .inr ⟨img, hs, himg, rfl, htrace⟩
  case encodes =>
    intro t s s' img hs himg h
    obtain ⟨hnone, -⟩ | ⟨img', -, himg', htrace⟩ := trace_of_setTime h
    · simp [hs, himg] at hnone
    · obtain rfl := Except.ok.inj (himg.symm.trans himg')
      exact htrace

/-- Before bring-up an operation's only call is the bring-up write (R188). -/
theorem trace_of_exec_uninitialized {i : Instr} {s s' : State} (hs : s.session = .uninitialized)
    (h : exec i s = .next s') :
    s'.trace = s.trace ∨ s'.trace = s.trace ++ [.writeSingle hoursOffset modeByte] := by
  cases i with
  | bcd2bin _ | bin2bcd _ | decode _ | encode _ => cases h; exact .inl rfl
  | readTime => rw [exec_readTime_uninitialized hs] at h; cases h; exact .inl rfl
  | setTime t => rw [exec_setTime_uninitialized hs] at h; cases h; exact .inl rfl
  | initSession => exact .inr (trace_of_initSession h)

/-- Settles O31: of what a step can do, only an operation touches the trace. -/
theorem onlyBringUpBeforeReady : Obligations.OnlyBringUpBeforeReady := by
  unfold Obligations.OnlyBringUpBeforeReady
  intro s s' hs h
  obtain ⟨-, rfl⟩ | ⟨rest, -, rfl⟩ | ⟨t, rest, i, hexec⟩ | ⟨t, rest, rfl⟩ := step_next h
  · exact .inl rfl
  · exact .inl rfl
  · exact trace_of_exec_uninitialized (s := s.receive t rest) hs hexec
  · exact .inl rfl

/-! The chip. -/

/-- Settles O28: a chip that an operation leaves is the one before, the one at the call, or that one with the seven
registers, or HR alone, stored or forgotten. -/
theorem offsetsAboveSixUntouched : Obligations.OffsetsAboveSixUntouched := by
  unfold Obligations.OffsetsAboveSixUntouched
  intro i s s' a ha h
  cases i with
  | bcd2bin _ | bin2bcd _ | decode _ | encode _ => cases h; exact .inl rfl
  | readTime =>
    obtain ⟨-, rfl⟩ | ⟨-, -, rfl⟩ | ⟨code, -, -, rfl⟩ := execReadTime_next h
    · exact .inl rfl
    · exact .inr rfl
    · exact .inr rfl
  | setTime t =>
    obtain ⟨-, rfl⟩ | ⟨e, -, -, rfl⟩ | ⟨img, -, -, -, rfl⟩ | ⟨img, code, -, -, -, rfl⟩ := execSetTime_next h
    · exact .inl rfl
    · exact .inl rfl
    · exact .inr (Memory.read?_writeBytes_outside _ _ _ _ (.inr ha))
    · exact .inr (Memory.read?_forgetRange_outside _ _ _ _ (.inr ha))
  | initSession =>
    have hhours : hoursOffset.toNat + 1 ≤ a := Nat.le_trans (by decide) ha
    obtain ⟨-, rfl⟩ | ⟨code, -, rfl⟩ := bringUp_next h
    · exact .inr (Memory.read?_writeBytes_outside _ _ _ _ (.inr hhours))
    · exact .inr (Memory.read?_forgetRange_outside _ _ _ _ (.inr hhours))

/-- Settles O32: no equation of another operation mentions the chip outside the chip. -/
theorem chipInvisibleExceptToReadTime : Obligations.ChipInvisibleExceptToReadTime := by
  unfold Obligations.ChipInvisibleExceptToReadTime
  intro i s t s' hi hst htr hreply h
  have hcall (c : BusCall) : s.trace ++ [c] = t.trace ++ [c] := congrArg (· ++ [c]) htr
  cases i with
  | bcd2bin _ | bin2bcd _ | decode _ | encode _ =>
    cases h
    exact ⟨_, rfl, hst, rfl, htr⟩
  | readTime => exact absurd rfl hi
  | setTime time =>
    obtain ⟨hs, rfl⟩ | ⟨e, hs, he, rfl⟩ | ⟨img, hs, himg, hr, rfl⟩ | ⟨img, code, hs, himg, hr, rfl⟩ :=
      execSetTime_next h
    all_goals rw [hst] at hs
    · exact ⟨_, exec_setTime_uninitialized hs, hst, rfl, htr⟩
    · exact ⟨_, exec_setTime_codecError hs he, hst, rfl, htr⟩
    · exact ⟨_, exec_setTime_stores hs himg (hreply ▸ hr), hst, rfl, hcall _⟩
    · exact ⟨_, exec_setTime_err hs himg (hreply ▸ hr), hst, rfl, hcall _⟩
  | initSession =>
    obtain ⟨hr, rfl⟩ | ⟨code, hr, rfl⟩ := bringUp_next h
    · exact ⟨_, exec_initSession_stores (hreply ▸ hr), rfl, rfl, hcall _⟩
    · exact ⟨_, exec_initSession_err (hreply ▸ hr), hst, rfl, hcall _⟩

/-! Errors (R166 to R169). -/

/-- Settles O36: an error is not INITIALIZE's success, the one end that changes the session state; the rest is read
off the ends with that error. -/
theorem errorsLeaveSessionState : Obligations.ErrorsLeaveSessionState := by
  unfold Obligations.ErrorsLeaveSessionState
  refine ⟨?session, ?setTimeCodec, ?readTime, ?setTimeTransport, ?initSession⟩
  case session =>
    intro i s s' r h hres hstatus
    by_cases hi : i = .initSession
    · subst hi
      obtain ⟨hok, -⟩ | ⟨code, -, hsame⟩ := session_of_initSession h
      · cases hres.symm.trans hok
        exact absurd rfl hstatus
      · exact hsame
    · exact session_of_exec hi h
  case setTimeCodec =>
    intro t s s' e h hres
    obtain ⟨-, rfl⟩ | ⟨e', -, -, rfl⟩ | ⟨img, -, -, -, rfl⟩ | ⟨img, code, -, -, -, rfl⟩ := execSetTime_next h
    · simp at hres
    · exact ⟨rfl, rfl⟩
    · simp at hres
    · simp at hres
  case readTime =>
    intro s s' code h hres
    obtain ⟨-, rfl⟩ | ⟨-, -, rfl⟩ | ⟨c, -, -, rfl⟩ := execReadTime_next h
    · simp at hres
    · exact absurd (Option.some.inj hres) (sessionResult_ne_transport _ _ _)
    · exact ⟨rfl, rfl⟩
  case setTimeTransport =>
    intro t s s' code h hres a ha
    obtain ⟨-, rfl⟩ | ⟨e, -, -, rfl⟩ | ⟨img, -, -, -, rfl⟩ | ⟨img, c, -, -, -, rfl⟩ := execSetTime_next h
    · simp at hres
    · simp at hres
    · simp at hres
    · exact Memory.read?_forgetRange_inside _ _ _ _ ⟨Nat.zero_le a, ha⟩
  case initSession =>
    intro s s' code h hres
    obtain ⟨-, rfl⟩ | ⟨c, -, rfl⟩ := bringUp_next h
    · simp at hres
    · exact Memory.read?_forgetRange_inside _ _ _ _ (by omega)

/-! Where an operation stops. -/

/-- The call's answer is one that stops the machine, by this outcome. -/
def StopsOnTheBus (i : Instr) (s : State) : Prop :=
  ¬ Claims.IsCodec i ∧
    ((s.bus.reply = .noAnswer ∧ exec i s = .fault .busNeverAnswers) ∨
      (s.bus.reply = .okWrongLength ∧ i = .readTime ∧ s.session = .ready ∧
        exec i s = .refused .wrongLengthRead))

theorem readTime_runs_or_stops (s : State) : (∃ s', exec .readTime s = .next s') ∨ StopsOnTheBus .readTime s := by
  cases hs : s.session with
  | uninitialized => exact .inl ⟨_, exec_readTime_uninitialized hs⟩
  | ready =>
    cases hr : s.bus.reply with
    | ok => exact .inl ⟨_, exec_readTime_ok hs hr⟩
    | err code => exact .inl ⟨_, exec_readTime_err hs hr⟩
    | okWrongLength => exact .inr ⟨id, .inr ⟨hr, rfl, hs, exec_readTime_wrongLength hs hr⟩⟩
    | noAnswer => exact .inr ⟨id, .inl ⟨hr, exec_readTime_noAnswer hs hr⟩⟩

theorem setTime_runs_or_stops (t : CanonicalTime) (s : State) :
    (∃ s', exec (.setTime t) s = .next s') ∨ StopsOnTheBus (.setTime t) s := by
  cases hs : s.session with
  | uninitialized => exact .inl ⟨_, exec_setTime_uninitialized hs⟩
  | ready =>
    cases himg : encodeTime t with
    | error e => exact .inl ⟨_, exec_setTime_codecError hs himg⟩
    | ok img =>
      cases hr : s.bus.reply with
      | ok => exact .inl ⟨_, exec_setTime_stores hs himg (.inl hr)⟩
      | okWrongLength => exact .inl ⟨_, exec_setTime_stores hs himg (.inr hr)⟩
      | err code => exact .inl ⟨_, exec_setTime_err hs himg hr⟩
      | noAnswer => exact .inr ⟨id, .inl ⟨hr, exec_setTime_noAnswer hs himg hr⟩⟩

theorem initSession_runs_or_stops (s : State) :
    (∃ s', exec .initSession s = .next s') ∨ StopsOnTheBus .initSession s := by
  cases hr : s.bus.reply with
  | ok => exact .inl ⟨_, exec_initSession_stores (.inl hr)⟩
  | okWrongLength => exact .inl ⟨_, exec_initSession_stores (.inr hr)⟩
  | err code => exact .inl ⟨_, exec_initSession_err hr⟩
  | noAnswer => exact .inr ⟨id, .inl ⟨hr, exec_initSession_noAnswer hr⟩⟩

theorem exec_runs_or_stops (i : Instr) (s : State) : (∃ s', exec i s = .next s') ∨ StopsOnTheBus i s := by
  cases i with
  | bcd2bin _ | bin2bcd _ | decode _ | encode _ => exact .inl ⟨_, rfl⟩
  | readTime => exact readTime_runs_or_stops s
  | setTime t => exact setTime_runs_or_stops t s
  | initSession => exact initSession_runs_or_stops s

/-- Settles O41: of what can stand next in the host's list only a command can stop the step, and then its operation
stops on the bus. -/
theorem stepStopsOnlyOnTheBus : Obligations.StepStopsOnlyOnTheBus := by
  unfold Obligations.StepStopsOnlyOnTheBus
  intro s
  obtain hin | ⟨rest, hin⟩ | ⟨c, t, rest, i, hin, hc⟩ | ⟨c, t, rest, hin, hc⟩ := inbox_cases s
  · exact .inl ⟨_, step_nil hin⟩
  · exact .inl ⟨_, step_reset hin⟩
  · have hstep := step_command hin hc
    obtain ⟨s', hexec⟩ | ⟨hi, hstop⟩ := exec_runs_or_stops i (s.receive t rest)
    · exact .inl ⟨s', hstep.trans hexec⟩
    · refine .inr ⟨c, t, rest, i, hin, hc, hi, ?_⟩
      rw [hstep]
      exact hstop
  · exact .inl ⟨_, step_reserved hin hc⟩

/-! Transport codes (R58, R161; decision D14). -/

/-- The same state, but that the code of the bus answer, if it has one, is put through a function. -/
def State.recoded (f : Config.TCode → Config.TCode) (s : State) : State :=
  { s with bus := ⟨s.bus.drift, Claims.recodedReply f s.bus.reply⟩ }

theorem recoded_reply_ok {f : Config.TCode → Config.TCode} {s : State} (h : s.bus.reply = .ok) :
    (s.recoded f).bus.reply = .ok := congrArg (Claims.recodedReply f) h

theorem recoded_reply_stores {f : Config.TCode → Config.TCode} {s : State} (h : s.bus.reply.Stores) :
    (s.recoded f).bus.reply.Stores :=
  h.imp (congrArg (Claims.recodedReply f)) (congrArg (Claims.recodedReply f))

theorem recoded_reply_err {f : Config.TCode → Config.TCode} {s : State} {code : Config.TCode}
    (h : s.bus.reply = .err code) : (s.recoded f).bus.reply = .err (f code) := congrArg (Claims.recodedReply f) h

theorem recodedResult_codecResult (f : Config.TCode → Config.TCode) {α : Type} (value : α → Value)
    (r : Except CodecError α) : Claims.recodedResult f (codecResult value r) = codecResult value r := by
  cases r <;> rfl

theorem recodedResult_sessionResult (f : Config.TCode → Config.TCode) {α : Type} (value : α → Value)
    (r : Except CodecError α) : Claims.recodedResult f (sessionResult value r) = sessionResult value r := by
  cases r <;> rfl

/-- The state an operation ends in, with the bus answer's code and the result's code put through a function. -/
def State.recodedEnd (f : Config.TCode → Config.TCode) (s s' : State) : State :=
  { s' with
    bus := ⟨s.bus.drift, Claims.recodedReply f s.bus.reply⟩
    result := s'.result.map (Claims.recodedResult f) }

theorem recodedEnd_finish {f : Config.TCode → Config.TCode} (s u : State) {r : OpResult}
    (h : Claims.recodedResult f r = r) : s.recodedEnd f (u.finish r) = { (s.recodedEnd f u) with result := some r } :=
  congrArg (fun r' => { (s.recodedEnd f u) with result := some r' }) h

theorem exec_recoded (f : Config.TCode → Config.TCode) {i : Instr} {s s' : State} (h : exec i s = .next s') :
    exec i (s.recoded f) = .next (s.recodedEnd f s') := by
  cases i with
  | bcd2bin _ | bin2bcd _ | decode _ | encode _ =>
    cases h
    exact congrArg Host.Outcome.next (recodedEnd_finish s s (recodedResult_codecResult f _ _)).symm
  | readTime =>
    obtain ⟨hs, rfl⟩ | ⟨hs, hr, rfl⟩ | ⟨code, hs, hr, rfl⟩ := execReadTime_next h
    · exact exec_readTime_uninitialized hs
    · rw [exec_readTime_ok (s := s.recoded f) hs (recoded_reply_ok hr),
        recodedEnd_finish s _ (recodedResult_sessionResult f _ _)]
      rfl
    · exact exec_readTime_err (s := s.recoded f) hs (recoded_reply_err hr)
  | setTime t =>
    obtain ⟨hs, rfl⟩ | ⟨e, hs, he, rfl⟩ | ⟨img, hs, himg, hr, rfl⟩ | ⟨img, code, hs, himg, hr, rfl⟩ :=
      execSetTime_next h
    · exact exec_setTime_uninitialized hs
    · exact exec_setTime_codecError (s := s.recoded f) hs he
    · exact exec_setTime_stores (s := s.recoded f) hs himg (recoded_reply_stores hr)
    · exact exec_setTime_err (s := s.recoded f) hs himg (recoded_reply_err hr)
  | initSession =>
    obtain ⟨hr, rfl⟩ | ⟨code, hr, rfl⟩ := bringUp_next h
    · exact exec_initSession_stores (recoded_reply_stores hr)
    · exact exec_initSession_err (recoded_reply_err hr)

/-- Settles O52: every equation of an operation treats the code of the answer as it treats any other. -/
theorem transportCodesAreOpaque : Obligations.TransportCodesAreOpaque := by
  unfold Obligations.TransportCodesAreOpaque
  intro f i s s'
  exact exec_recoded f

end Sys2Proof.Machine
end

section
/-! A write and the read that follows it, on a chip that stands still in between (R189, R190, R193; decision D20). -/

namespace Sys2Proof.Machine

/-- On a quiet bus the next call finds the chip as it was left. -/
theorem imageHeld_quiet_writeBytes {s : State} (m : Memory) (img : RegisterImage)
    (hchip : s.chip = m.writeBytes imageOffset.toNat (imageBytes img)) :
    imageHeld { s with bus := Claims.quietBus } = img := by
  refine imageHeld_of_read? fun i hi => ?_
  change s.chip.read? i = (imageBytes img)[i]?
  rw [hchip, read?_writeBytes_image m img hi]

/-- Settles O29: the write puts the image of the time on the chip, the read hands that image to DECODE, and the codec's
round trip gives the time back. -/
theorem setThenReadReturnsTheTime : Obligations.SetThenReadReturnsTheTime := by
  unfold Obligations.SetThenReadReturnsTheTime
  intro s t hs ht hr
  refine ⟨_, _, exec_setTime_stores hs (encodeTime_eq_packed ht) (.inl hr), exec_readTime_ok hs rfl, ?_⟩
  rw [imageHeld_quiet_writeBytes s.chipNow (Claims.packed t) rfl, decodeImage_packed ht]
  rfl

/-- Settles O30: the registers hold the image of the time, which is clean. -/
theorem setTimeClearsFlagBits : Obligations.SetTimeClearsFlagBits := by
  unfold Obligations.SetTimeClearsFlagBits
  intro s t hs ht hr
  refine ⟨_, Claims.packed t, exec_setTime_stores hs (encodeTime_eq_packed ht) (.inl hr), cleanImage_packed ht, ?_, ?_,
    fun i hi => read?_writeBytes_image _ _ hi⟩
  · obtain ⟨hsec, hsec', -⟩ := ht
    exact digits_bit7_clear hsec (by omega)
  · obtain ⟨-, -, -, -, hhr, hhr', -⟩ := ht
    exact (mode12_eq_getLsbD _).trans (digits_bit6_clear hhr (by omega))

/-- The hours that DECODE answers with are the numeral of the consumed part of HR. -/
theorem hours_of_decodeImage {img : RegisterImage} {t : CanonicalTime} (h : decodeImage img = .ok t) :
    t.hours = Claims.number (Claims.hourBits img.hr) := by
  obtain ⟨-, -, rfl⟩ := decodeImage_ok_iff_readOut.1 h
  rfl

theorem sessionResult_timeValue_eq_time_iff {r : Except CodecError CanonicalTime} {t : CanonicalTime}
    {dayOfYear isDst : Int} :
    sessionResult timeValue r = .ok (.time t dayOfYear isDst) ↔ r = .ok t ∧ dayOfYear = -1 ∧ isDst = -1 := by
  cases r with
  | error e => simp [sessionResult]
  | ok t' => simp [sessionResult, timeValue, sentinel, eq_comm]

/-- A READ_TIME on a quiet bus that gives a time gives the hours of the HR that the chip holds. -/
theorem hours_of_quiet_readTime {s s' : State} {hr : Byte} {t : CanonicalTime} {dayOfYear isDst : Int}
    (hs : s.session = .ready) (hchip : s.chip.read? 2 = some hr)
    (h : exec .readTime { s with bus := Claims.quietBus } = .next s')
    (hres : s'.result = some (.ok (.time t dayOfYear isDst))) : t.hours = Claims.number (Claims.hourBits hr) := by
  have hheld : (imageHeld { s with bus := Claims.quietBus }).hr = hr := State.chipByte_of_read? hchip
  rw [exec_readTime_ok (s := { s with bus := Claims.quietBus }) hs rfl] at h
  cases h
  obtain ⟨hdec, -, -⟩ := sessionResult_timeValue_eq_time_iff.1 (Option.some.inj hres)
  rw [hours_of_decodeImage hdec, hheld]

/-- A successful bring-up with a byte of 24-hour mode, and the reads that follow it (R189, R190). -/
theorem bringUp_then_hours {s : State} {mode : Byte} (hmode : mode.getLsbD 6 = false) (hr : s.bus.reply = .ok) :
    ∃ s1, bringUp mode s = .next s1 ∧ s1.session = .ready ∧ s1.chip.read? 2 = some mode ∧
      ∀ s2 t, exec .readTime { s1 with bus := Claims.quietBus } = .next s2 →
        s2.result = some (.ok (.time t (-1) (-1))) → t.hours = Claims.number (mode &&& 0x3F#8) := by
  have hchip := read?_writeBytes_single s.chipNow hoursOffset.toNat mode
  refine ⟨_, bringUp_stores (.inl hr), rfl, hchip, fun s2 t h hres => ?_⟩
  rw [hours_of_quiet_readTime rfl hchip h hres, Claims.hourBits, hmode]
  rfl

/-- Settles O24: bring-up stores its byte in HR, and a read that follows takes HR's numeral; INITIALIZE is the
bring-up with 0x00. -/
theorem bringUpSetsTheHour : Obligations.BringUpSetsTheHour := by
  unfold Obligations.BringUpSetsTheHour
  refine ⟨fun s mode => bringUp_then_hours, fun s hr => ?_⟩
  obtain ⟨s1, hexec, -, -, hhours⟩ := bringUp_then_hours (mode := modeByte) (by decide) hr
  exact ⟨s1, hexec, hhours⟩

end Sys2Proof.Machine
end

section
/-! What reports an outcome: the status word and the result ports (R68, R72, R73, R165). -/

namespace Sys2Proof.Machine

/-- Settles O33: the status of each kind of result, and so of every result. -/
theorem statusWordOfResult : Obligations.StatusWordOfResult := by
  unfold Obligations.StatusWordOfResult
  refine ⟨fun _ => rfl, fun _ => rfl, rfl, rfl, rfl, rfl, rfl, ?_⟩
  intro r
  cases r with
  | ok v => exact Nat.zero_le 4
  | codecErr e => cases e <;> decide
  | sessionErr e =>
    cases e with
    | transport code => exact (by decide : 1 ≤ 4)
    | codec e => cases e <;> decide
  | refused => decide

/-! Which status an operation can end with (R165). -/

@[simp] theorem outcomes_bcd2bin (b : Byte) : Claims.outcomes (encode (.bcd2bin b)).op.toNat = [0, 2] := rfl
@[simp] theorem outcomes_bin2bcd (n : Int) : Claims.outcomes (encode (.bin2bcd n)).op.toNat = [0, 3] := rfl
@[simp] theorem outcomes_decode (img : RegisterImage) :
    Claims.outcomes (encode (.decode img)).op.toNat = [0, 2, 3] := rfl
@[simp] theorem outcomes_encode (t : CanonicalTime) : Claims.outcomes (encode (.encode t)).op.toNat = [0, 3] := rfl
@[simp] theorem outcomes_readTime : Claims.outcomes (encode .readTime).op.toNat = [0, 1, 2, 3, 4] := rfl
@[simp] theorem outcomes_setTime (t : CanonicalTime) :
    Claims.outcomes (encode (.setTime t)).op.toNat = [0, 1, 3, 4] := rfl
@[simp] theorem outcomes_initSession : Claims.outcomes (encode .initSession).op.toNat = [0, 1] := rfl

/-- The result is one whose status the table allows the operation. -/
abbrev AllowedResult (i : Instr) (r : OpResult) : Prop := r.status ∈ Claims.outcomes (encode i).op.toNat

theorem allowedResult_bcd2bin (b : Byte) : AllowedResult (.bcd2bin b) (codecResult .number (bcdToBin b)) := by
  cases hb : bcdToBin b with
  | ok n => simp [codecResult, AllowedResult, OpResult.status]
  | error e =>
    obtain rfl := onlyMalformed_bcdToBin b e hb
    simp [codecResult, AllowedResult, OpResult.status]

theorem allowedResult_bin2bcd (n : Int) : AllowedResult (.bin2bcd n) (codecResult .byte (binToBcd n)) := by
  cases hn : binToBcd n with
  | ok b => simp [codecResult, AllowedResult, OpResult.status]
  | error e =>
    obtain ⟨-, rfl⟩ := binToBcd_error_iff.1 hn
    simp [codecResult, AllowedResult, OpResult.status]

theorem allowedResult_decode (img : RegisterImage) :
    AllowedResult (.decode img) (codecResult timeValue (decodeImage img)) := by
  cases decodeImage img with
  | ok t => simp [codecResult, AllowedResult, OpResult.status]
  | error e => cases e <;> simp [codecResult, AllowedResult, OpResult.status]

theorem allowedResult_encode (t : CanonicalTime) :
    AllowedResult (.encode t) (codecResult .image (encodeTime t)) := by
  cases ht : encodeTime t with
  | ok img => simp [codecResult, AllowedResult, OpResult.status]
  | error e =>
    obtain rfl := encodeTime_error ht
    simp [codecResult, AllowedResult, OpResult.status]

theorem allowedResult_readTime {s s' : State} (h : exec .readTime s = .next s') :
    ∃ r, s'.result = some r ∧ AllowedResult .readTime r := by
  obtain ⟨-, rfl⟩ | ⟨-, -, rfl⟩ | ⟨code, -, -, rfl⟩ := execReadTime_next h
  · exact ⟨_, rfl, by simp [AllowedResult, OpResult.status]⟩
  · refine ⟨_, rfl, ?_⟩
    cases decodeImage (imageHeld s) with
    | ok t => simp [sessionResult, AllowedResult, OpResult.status]
    | error e => cases e <;> simp [sessionResult, AllowedResult, OpResult.status]
  · exact ⟨_, rfl, by simp [AllowedResult, OpResult.status]⟩

theorem allowedResult_setTime {t : CanonicalTime} {s s' : State} (h : exec (.setTime t) s = .next s') :
    ∃ r, s'.result = some r ∧ AllowedResult (.setTime t) r := by
  obtain ⟨-, rfl⟩ | ⟨e, -, he, rfl⟩ | ⟨img, -, -, -, rfl⟩ | ⟨img, code, -, -, -, rfl⟩ := execSetTime_next h
  · exact ⟨_, rfl, by simp [AllowedResult, OpResult.status]⟩
  · obtain rfl := encodeTime_error he
    exact ⟨_, rfl, by simp [AllowedResult, OpResult.status]⟩
  · exact ⟨_, rfl, by simp [AllowedResult, OpResult.status]⟩
  · exact ⟨_, rfl, by simp [AllowedResult, OpResult.status]⟩

theorem allowedResult_initSession {s s' : State} (h : exec .initSession s = .next s') :
    ∃ r, s'.result = some r ∧ AllowedResult .initSession r := by
  obtain ⟨-, rfl⟩ | ⟨code, -, rfl⟩ := bringUp_next h
  · exact ⟨_, rfl, by simp [AllowedResult, OpResult.status]⟩
  · exact ⟨_, rfl, by simp [AllowedResult, OpResult.status]⟩

theorem allowedResult_of_exec {i : Instr} {s s' : State} (h : exec i s = .next s') :
    ∃ r, s'.result = some r ∧ AllowedResult i r := by
  cases i with
  | bcd2bin b => cases h; exact ⟨_, rfl, allowedResult_bcd2bin b⟩
  | bin2bcd n => cases h; exact ⟨_, rfl, allowedResult_bin2bcd n⟩
  | decode img => cases h; exact ⟨_, rfl, allowedResult_decode img⟩
  | encode t => cases h; exact ⟨_, rfl, allowedResult_encode t⟩
  | readTime => exact allowedResult_readTime h
  | setTime t => exact allowedResult_setTime h
  | initSession => exact allowedResult_initSession h

theorem statusOut_of_result {s : State} {r : OpResult} (h : s.result = some r) : s.statusOut = some r.status := by
  simp only [State.statusOut, h]

/-! Every entry of the table is reached. -/

/-- Some well-formed operation of a code ends, in some state, with a status. -/
def Reaches (k : Nat) (st : BitVec 3) : Prop :=
  ∃ i s s', i.wellFormed = true ∧ (encode i).op.toNat = k ∧ exec i s = .next s' ∧ s'.statusOut = some st

/-- The smallest valid time. -/
def firstTime : CanonicalTime := ⟨0, 0, 0, 0, 1, 0, 100⟩

/-- A time with no day of the month. -/
def dayZeroTime : CanonicalTime := { firstTime with dayOfMonth := 0 }

/-- An image with no day of the month. -/
def dayZeroImage : RegisterImage := { Claims.packed firstTime with date := 0x00#8 }

/-- A block in `Ready` whose next call fails. -/
def readyFailing : State := { State.reset with session := .ready, bus := ⟨[], .err 0⟩ }

theorem reaches_bcd2bin (b : Byte) {st : BitVec 3} (h : (codecResult .number (bcdToBin b)).status = st) :
    Reaches 0 st := ⟨.bcd2bin b, State.reset, _, rfl, rfl, rfl, congrArg some h⟩

theorem reaches_bin2bcd {n : Int} (hn : FitsField n) {st : BitVec 3}
    (h : (codecResult .byte (binToBcd n)).status = st) : Reaches 1 st :=
  ⟨.bin2bcd n, State.reset, _, decide_eq_true hn, rfl, rfl, congrArg some h⟩

theorem reaches_decode (img : RegisterImage) {st : BitVec 3}
    (h : (codecResult timeValue (decodeImage img)).status = st) : Reaches 2 st :=
  ⟨.decode img, State.reset, _, rfl, rfl, rfl, congrArg some h⟩

theorem reaches_encode {t : CanonicalTime} (ht : t.FitsPorts) {st : BitVec 3}
    (h : (codecResult .image (encodeTime t)).status = st) : Reaches 3 st :=
  ⟨.encode t, State.reset, _, decide_eq_true ht, rfl, rfl, congrArg some h⟩

theorem reaches_readTime {s s' : State} (h : exec .readTime s = .next s') {r : OpResult} (hr : s'.result = some r) :
    Reaches 4 r.status := ⟨.readTime, s, s', rfl, rfl, h, statusOut_of_result hr⟩

theorem reaches_setTime {t : CanonicalTime} (ht : t.FitsPorts) {s s' : State} (h : exec (.setTime t) s = .next s')
    {r : OpResult} (hr : s'.result = some r) : Reaches 5 r.status :=
  ⟨.setTime t, s, s', decide_eq_true ht, rfl, h, statusOut_of_result hr⟩

theorem reaches_initSession {s s' : State} (h : exec .initSession s = .next s') {r : OpResult}
    (hr : s'.result = some r) : Reaches 6 r.status := ⟨.initSession, s, s', rfl, rfl, h, statusOut_of_result hr⟩

theorem reaches_outcomes_readTime : ∀ st ∈ Claims.outcomes 4, Reaches 4 st := by
  simp only [Claims.outcomes, List.forall_mem_cons]
  exact ⟨reaches_readTime (s := readyHolding (Claims.packed firstTime)) (exec_readTime_ok rfl rfl) rfl,
    reaches_readTime (s := readyFailing) (exec_readTime_err rfl rfl) rfl,
    reaches_readTime (s := readyHolding malformedSecondsImage) (exec_readTime_ok rfl rfl) rfl,
    reaches_readTime (s := readyHolding dayZeroImage) (exec_readTime_ok rfl rfl) rfl,
    reaches_readTime (s := State.reset) (exec_readTime_uninitialized rfl) rfl, nofun⟩

theorem reaches_outcomes_setTime : ∀ st ∈ Claims.outcomes 5, Reaches 5 st := by
  have hfirst : firstTime.FitsPorts := by decide
  have hzero : dayZeroTime.FitsPorts := by decide
  have hpacked : encodeTime firstTime = .ok (Claims.packed firstTime) := rfl
  have hinvalid : encodeTime dayZeroTime = .error .fieldOutOfRange := rfl
  simp only [Claims.outcomes, List.forall_mem_cons]
  exact ⟨reaches_setTime hfirst (s := readyHolding dayZeroImage) (exec_setTime_stores rfl hpacked (.inl rfl)) rfl,
    reaches_setTime hfirst (s := readyFailing) (exec_setTime_err rfl hpacked rfl) rfl,
    reaches_setTime hzero (s := readyFailing) (exec_setTime_codecError rfl hinvalid) rfl,
    reaches_setTime hzero (s := State.reset) (exec_setTime_uninitialized rfl) rfl, nofun⟩

theorem reaches_outcomes {k : Nat} (hk : k < 7) : ∀ st ∈ Claims.outcomes k, Reaches k st := by
  interval_cases k
  · exact List.forall_mem_cons.2 ⟨reaches_bcd2bin 0x00#8 rfl, List.forall_mem_singleton.2 (reaches_bcd2bin 0x0A#8 rfl)⟩
  · exact List.forall_mem_cons.2 ⟨reaches_bin2bcd (n := 0) (by decide) rfl,
      List.forall_mem_singleton.2 (reaches_bin2bcd (n := 100) (by decide) rfl)⟩
  · exact List.forall_mem_cons.2 ⟨reaches_decode (Claims.packed firstTime) rfl,
      List.forall_mem_cons.2 ⟨reaches_decode malformedSecondsImage rfl,
        List.forall_mem_singleton.2 (reaches_decode dayZeroImage rfl)⟩⟩
  · exact List.forall_mem_cons.2 ⟨reaches_encode (t := firstTime) (by decide) rfl,
      List.forall_mem_singleton.2 (reaches_encode (t := dayZeroTime) (by decide) rfl)⟩
  · exact reaches_outcomes_readTime
  · exact reaches_outcomes_setTime
  · exact List.forall_mem_cons.2 ⟨reaches_initSession (s := State.reset) (exec_initSession_stores (.inl rfl)) rfl,
      List.forall_mem_singleton.2 (reaches_initSession (s := readyFailing) (exec_initSession_err rfl) rfl)⟩

/-- Settles O34: the result of each way an operation can end is allowed, and each entry has an operation and a state
that end so. -/
theorem outcomeTable : Obligations.OutcomeTable := by
  unfold Obligations.OutcomeTable
  refine ⟨?allowed, fun k => reaches_outcomes⟩
  intro i s s' h
  obtain ⟨r, hres, hallowed⟩ := allowedResult_of_exec h
  exact ⟨r.status, statusOut_of_result hres, hallowed⟩

/-! The result ports (R73). -/

/-- The ports show the result: they are those of any other state with it. -/
theorem ports_eq_of_result {s u : State} (h : s.result = u.result) : Claims.ports s = Claims.ports u := by
  simp only [Claims.ports, State.statusOut, State.nOut, State.byteOut, State.timeOut, State.dayOfYearOut,
    State.isDstOut, State.imageOut, State.tcodeOut, h]

theorem ports_of_result_none {s : State} (h : s.result = none) : Claims.ports s = {} :=
  ports_eq_of_result (u := State.reset) h

theorem ports_of_transport {s : State} {code : Config.TCode} (h : s.result = some (.sessionErr (.transport code))) :
    Claims.ports s = { status := some 1, tcodeOut := some code } :=
  ports_eq_of_result (u := State.reset.finish (.sessionErr (.transport code))) h

/-- An error that is not Transport shows on the status alone. -/
theorem ports_of_status {s : State} {st : BitVec 3} (h : s.statusOut = some st) (hok : st ≠ 0)
    (htransport : st ≠ 1) : Claims.ports s = { status := some st } := by
  cases hres : s.result with
  | none => simp [State.statusOut, hres] at h
  | some r =>
    obtain rfl := Option.some.inj ((statusOut_of_result hres).symm.trans h)
    refine (ports_eq_of_result (u := State.reset.finish r) hres).trans ?_
    cases r with
    | ok v => exact absurd rfl hok
    | codecErr e => rfl
    | sessionErr e =>
      cases e with
      | transport code => exact absurd rfl htransport
      | codec e => rfl
    | refused => rfl

/-- A time in range stands on its port without loss. -/
theorem fitsPorts_of_inRange {t : CanonicalTime} (h : Claims.InRange t) : t.FitsPorts := by
  unfold Claims.InRange at h
  refine ⟨?_, ?_, ?_, ?_, ?_, ?_, ?_⟩ <;> constructor <;> omega

theorem ofPort_toPort_of_decodeImage {img : RegisterImage} {t : CanonicalTime} (h : decodeImage img = .ok t) :
    CanonicalTime.ofPort t.toPort = t := by
  obtain ⟨-, hrange, -⟩ := decodeImage_ok_iff_readOut.1 h
  exact CanonicalTime.ofPort_toPort (fitsPorts_of_inRange hrange)

theorem toInt_fieldWord_of_bcdToBin {b : Byte} {n : Int} (h : bcdToBin b = .ok n) : (fieldWord n).toInt = n := by
  obtain ⟨h0, h99⟩ := range_of_bcdToBin h
  exact toInt_fieldWord ⟨by omega, by omega⟩

theorem stateOut_eq_zero_iff (s : State) : s.stateOut = 0 ↔ s.session = .uninitialized := by
  cases hs : s.session <;> simp [State.stateOut, hs]

theorem stateOut_eq_one_iff (s : State) : s.stateOut = 1 ↔ s.session = .ready := by
  cases hs : s.session <;> simp [State.stateOut, hs]

/-- Settles O42: each success is an equation of its operation, whose result's own ports are read off; the other
clauses hold of the result whatever the operation. -/
theorem resultPortsShowTheResult : Obligations.ResultPortsShowTheResult := by
  unfold Obligations.ResultPortsShowTheResult
  refine ⟨?bcd2bin, ?bin2bcd, ?decode, ?encode, ?readTime, ?setTime, ?initSession,
    fun i s s' code _ => ports_of_transport, fun i s s' st _ => ports_of_status, fun s => ports_of_result_none,
    fun s => ⟨stateOut_eq_zero_iff s, stateOut_eq_one_iff s⟩⟩
  case bcd2bin =>
    intro b s s' n hn h
    rw [exec_bcd2bin, hn] at h
    cases h
    exact ⟨rfl, toInt_fieldWord_of_bcdToBin hn⟩
  case bin2bcd =>
    intro n s s' b hb h
    rw [exec_bin2bcd, hb] at h
    cases h
    rfl
  case decode =>
    intro img s s' t ht h
    rw [exec_decode, ht] at h
    cases h
    exact ⟨rfl, ofPort_toPort_of_decodeImage ht⟩
  case encode =>
    intro t s s' img himg h
    rw [exec_encode, himg] at h
    cases h
    rfl
  case readTime =>
    intro s s' t hs hr ht h
    rw [exec_readTime_ok hs hr, ht] at h
    cases h
    rfl
  case setTime =>
    intro t s s' hs ht hr h
    rw [exec_setTime_stores hs (encodeTime_eq_packed ht) hr] at h
    cases h
    rfl
  case initSession =>
    intro s s' hr h
    rw [exec_initSession_stores hr] at h
    cases h
    rfl

end Sys2Proof.Machine
end
